-- ==== Sys2Proof/Word.lean ====
section
/-!
DEFINITION. The plain words of the block (rule R8) and the shapes its channels and pins carry (rules R32, R35), the
three clock domains (R12, R92), the selector formats (R52) and the two FSM state types (R17, R21).
-/

namespace Sys2Proof

/-- The data value of a byte-stream element (BYTE_W = 8, rules R7 and R8). -/
abbrev Byte := BitVec 8

/-- "4-bit data unit" (NIB_W = 4, rules R7 and R12). -/
abbrev Nibble := BitVec 4

/-- The three independently clocked domains of rules R12 and R92. -/
inductive ClockDomain where
  | base
  | tx
  | rx
deriving DecidableEq, Repr

/-- The six selector formats of rule R52; RSSEL and RSTOVR stand once per domain. -/
inductive Format where
  | txsel
  | rxsel
  | rssel (d : ClockDomain)
  | rstovr (d : ClockDomain)
  | base
  | hostw
deriving DecidableEq, Repr

/-- `tx.state` (rule R17). Exactly three constructors, as rule R61 asks. -/
inductive TxFsm where
  | idle
  | sendLow
  | sendHigh
deriving DecidableEq, Repr

/-- `rx.state` (rule R21). Exactly three constructors, as rule R61 asks. -/
inductive RxFsm where
  | idle
  | loadHigh
  | loadLow
deriving DecidableEq, Repr

/-- One element of a byte-stream channel, `(data, sof, eof)` (rule R35). -/
structure Element where
  data : Byte
  sof : Bool
  eof : Bool
deriving DecidableEq, Repr

/-- The upstream sink's inputs in one tx tick (rule R32), with the defaults of rule R65. -/
structure SinkIn where
  valid : Bool := false
  data : Byte := 0
  sof : Bool := false
  eof : Bool := false
deriving DecidableEq, Repr

/-- The receive pins and the consumer's readiness in one rx tick (rule R32), with the defaults of rule R65. -/
structure RxIn where
  dv : Bool := false
  data : Nibble := 0
  ready : Bool := true
deriving DecidableEq, Repr

end Sys2Proof
end

