-- ==== Sys2Proof/Syntax.lean ====
section
/-!
DEFINITION. The operations of the block (rules R6 and R59): one constructor per row of spec/opcode_table.json. The
operands of a constructor are the selector bits its row's mask leaves free (v, f, e, d of rule R52), and, for the two
ResetSync rows, the domain whose synchronizer runs. Data operands (`in.sink_data`, `in.rx_data`) are in no selector (R52).
-/

namespace Sys2Proof

inductive Instr where
  /-- TX.IDLE_WAIT, TXSEL `000fe` (rule R68). -/
  | txIdleWait (f e : Bool)
  /-- TX.IDLE_DISCARD, TXSEL `0010e` (rule R69). -/
  | txIdleDiscard (e : Bool)
  /-- TX.IDLE_START, TXSEL `0011e` (rule R70). -/
  | txIdleStart (e : Bool)
  /-- TX.SEND_LOW, TXSEL `01vfe` (rule R71). -/
  | txSendLow (v f e : Bool)
  /-- TX.SEND_HIGH_LAST, TXSEL `101f1` (rule R72). -/
  | txSendHighLast (f : Bool)
  /-- TX.SEND_HIGH_NEXT, TXSEL `101f0` (rule R73). -/
  | txSendHighNext (f : Bool)
  /-- TX.SEND_HIGH_UNDERRUN, TXSEL `100fe` (rule R74). -/
  | txSendHighUnderrun (f e : Bool)
  /-- RX.IDLE_WAIT, RXSEL `000` (rule R82). -/
  | rxIdleWait
  /-- RX.IDLE_CAPTURE, RXSEL `001` (rule R83). -/
  | rxIdleCapture
  /-- RX.LOAD_HIGH, RXSEL `01d` (rule R84). -/
  | rxLoadHigh (d : Bool)
  /-- RX.LOAD_LOW_NEXT, RXSEL `101` (rule R85). -/
  | rxLoadLowNext
  /-- RX.LOAD_LOW_LAST, RXSEL `100` (rule R86). -/
  | rxLoadLowLast
  /-- BASE.TOGGLE, no selector bits (rule R93). -/
  | baseToggle
  /-- HOST.WRITE_RESET_REQ, HOSTW `v` (rule R95). -/
  | hostWriteResetReq (v : Bool)
  /-- RS.REQ_HIGH, RSSEL `1`, of domain tx or rx (rule R98). -/
  | rsReqHigh (d : ClockDomain)
  /-- RS.REQ_LOW, RSSEL `0`, of domain tx or rx (rule R99). -/
  | rsReqLow (d : ClockDomain)
  /-- TX.RESET_OVERRIDE, RSTOVR `1` of domain tx (rule R100). -/
  | txResetOverride
  /-- RX.RESET_OVERRIDE, RSTOVR `1` of domain rx (rule R101). -/
  | rxResetOverride
deriving DecidableEq, Repr

end Sys2Proof
end

