-- ==== Sys2Proof/WellFormed.lean ====
section
/-!
DEFINITION. What the fields of an operation may hold. Every selector bit is free, so the one check is that a ResetSync
row names a domain that has a synchronizer: tx or rx, never base (rules R52 and R97).
-/

namespace Sys2Proof

/-- Rule R97: "Each of the domains tx and rx has its own chain". The base domain has none. -/
def ClockDomain.hasSync : ClockDomain → Bool
  | .base => false
  | .tx => true
  | .rx => true

def Instr.wellFormed : Instr → Bool
  | .rsReqHigh d => d.hasSync
  | .rsReqLow d => d.hasSync
  | .txIdleWait _ _ => true
  | .txIdleDiscard _ => true
  | .txIdleStart _ => true
  | .txSendLow _ _ _ => true
  | .txSendHighLast _ => true
  | .txSendHighNext _ => true
  | .txSendHighUnderrun _ _ => true
  | .rxIdleWait => true
  | .rxIdleCapture => true
  | .rxLoadHigh _ => true
  | .rxLoadLowNext => true
  | .rxLoadLowLast => true
  | .baseToggle => true
  | .hostWriteResetReq _ => true
  | .txResetOverride => true
  | .rxResetOverride => true

/-- The check as a decidable proposition, for statements. -/
abbrev Instr.WellFormed (i : Instr) : Prop := i.wellFormed = true

end Sys2Proof
end

