-- ==== Sys2Proof/Decode.lean ====
section
/-!
DEFINITION. Selector words and stimulus words. The decoder finds a selector's row by the match and mask of rule R59, one
table per format of rule R52, and rejects by name what no row matches (R58, R60, R61). The encoder is written from the
"encoding" column of the same rule. The stimulus and element words are those of rule R66.
-/

namespace Sys2Proof

/-- Why a selector word selects no operation. -/
inductive Reject where
  /-- A state field `11`, "not a state" (rules R53, R54, R61; 93 U1). -/
  | reservedState
  /-- More bits than the format has (rules R52, R64). -/
  | wordTooWide
  /-- RSTOVR 0: "A value of 0 selects no override" (rule R58). -/
  | noOverride
  /-- RSSEL or RSTOVR of the base domain, which has neither (rule R52: d is tx or rx). -/
  | noSynchronizer
deriving DecidableEq, Repr

/-- The width column of rule R52. -/
def Format.width : Format → Nat
  | .txsel => 5
  | .rxsel => 3
  | .rssel _ => 1
  | .rstovr _ => 1
  | .base => 0
  | .hostw => 1

/-- Transmitter state codes (rule R53). -/
def TxFsm.code : TxFsm → BitVec 2
  | .idle => 0b00#2
  | .sendLow => 0b01#2
  | .sendHigh => 0b10#2

/-- Receiver state codes (rule R54). -/
def RxFsm.code : RxFsm → BitVec 2
  | .idle => 0b00#2
  | .loadHigh => 0b01#2
  | .loadLow => 0b10#2

/-- `{tx.state[1:0], in.sink_valid, in.sink_sof, in.sink_eof}` (rule R55). -/
def selTx (q : TxFsm) (v f e : Bool) : BitVec 5 :=
  q.code ++ BitVec.ofBool v ++ BitVec.ofBool f ++ BitVec.ofBool e

/-- `{rx.state[1:0], in.rx_dv}` (rule R56). -/
def selRx (q : RxFsm) (d : Bool) : BitVec 3 :=
  q.code ++ BitVec.ofBool d

/-- One row of the opcode map (rule R59): the operation a selector gives when `sel &&& mask = pat`. -/
structure OpRow (n : Nat) where
  pat : BitVec n
  mask : BitVec n
  op : BitVec n → Instr

/-- "matching the component's selector word against the match/mask pairs" (rule R52). -/
def OpRow.matches {n : Nat} (r : OpRow n) (w : BitVec n) : Bool :=
  w &&& r.mask == r.pat

/-- The TXSEL rows of rule R59. -/
def txRows : List (OpRow 5) :=
  [ ⟨0b00000#5, 0b11100#5, fun w => .txIdleWait w[1] w[0]⟩,
    ⟨0b00100#5, 0b11110#5, fun w => .txIdleDiscard w[0]⟩,
    ⟨0b00110#5, 0b11110#5, fun w => .txIdleStart w[0]⟩,
    ⟨0b01000#5, 0b11000#5, fun w => .txSendLow w[2] w[1] w[0]⟩,
    ⟨0b10101#5, 0b11101#5, fun w => .txSendHighLast w[1]⟩,
    ⟨0b10100#5, 0b11101#5, fun w => .txSendHighNext w[1]⟩,
    ⟨0b10000#5, 0b11100#5, fun w => .txSendHighUnderrun w[1] w[0]⟩ ]

/-- The RXSEL rows of rule R59. -/
def rxRows : List (OpRow 3) :=
  [ ⟨0b000#3, 0b111#3, fun _ => .rxIdleWait⟩,
    ⟨0b001#3, 0b111#3, fun _ => .rxIdleCapture⟩,
    ⟨0b010#3, 0b110#3, fun w => .rxLoadHigh w[0]⟩,
    ⟨0b101#3, 0b111#3, fun _ => .rxLoadLowNext⟩,
    ⟨0b100#3, 0b111#3, fun _ => .rxLoadLowLast⟩ ]

/-- The RSSEL rows of rule R59, of one domain. -/
def rsRows (d : ClockDomain) : List (OpRow 1) :=
  [ ⟨0b1#1, 0b1#1, fun _ => .rsReqHigh d⟩,
    ⟨0b0#1, 0b1#1, fun _ => .rsReqLow d⟩ ]

/-- The RSTOVR row of rule R59, of one domain. -/
def ovrRows : ClockDomain → List (OpRow 1)
  | .base => []
  | .tx => [⟨0b1#1, 0b1#1, fun _ => .txResetOverride⟩]
  | .rx => [⟨0b1#1, 0b1#1, fun _ => .rxResetOverride⟩]

/-- The HOSTW row of rule R59: mask 0, so every value of the written bit matches. -/
def hostRows : List (OpRow 1) :=
  [⟨0b0#1, 0b0#1, fun w => .hostWriteResetReq w[0]⟩]

/-- The BASE row of rule R59, with no bits at all. -/
def baseRows : List (OpRow 0) :=
  [⟨0#0, 0#0, fun _ => .baseToggle⟩]

/-- The operation of the first row that matches; `no` where none does. Rows never compete (rule R109). -/
def lookup {n : Nat} (rows : List (OpRow n)) (w : BitVec n) (no : Reject) : Except Reject Instr :=
  match rows.find? (fun r => r.matches w) with
  | some r => .ok (r.op w)
  | none => .error no

/-- The operation a selector word of a format selects (rules R52, R59, R60), for any number `w`. -/
def decode (fmt : Format) (w : Nat) : Except Reject Instr :=
  if w < 2 ^ fmt.width then
    match fmt with
    | .txsel => lookup txRows (BitVec.ofNat 5 w) .reservedState
    | .rxsel => lookup rxRows (BitVec.ofNat 3 w) .reservedState
    | .rssel d => if d.hasSync then lookup (rsRows d) (BitVec.ofNat 1 w) .noSynchronizer else .error .noSynchronizer
    | .rstovr d => if d.hasSync then lookup (ovrRows d) (BitVec.ofNat 1 w) .noOverride else .error .noSynchronizer
    | .base => lookup baseRows (BitVec.ofNat 0 w) .wordTooWide
    | .hostw => lookup hostRows (BitVec.ofNat 1 w) .wordTooWide
  else .error .wordTooWide

/-- A selector word with the format it is a word of. -/
structure Selector where
  fmt : Format
  word : Nat
deriving DecidableEq, Repr

/-- The selector word of an operation, from the "encoding" column of rule R59. -/
def encode : Instr → Selector
  | .txIdleWait f e => ⟨.txsel, (selTx .idle false f e).toNat⟩
  | .txIdleDiscard e => ⟨.txsel, (selTx .idle true false e).toNat⟩
  | .txIdleStart e => ⟨.txsel, (selTx .idle true true e).toNat⟩
  | .txSendLow v f e => ⟨.txsel, (selTx .sendLow v f e).toNat⟩
  | .txSendHighLast f => ⟨.txsel, (selTx .sendHigh true f true).toNat⟩
  | .txSendHighNext f => ⟨.txsel, (selTx .sendHigh true f false).toNat⟩
  | .txSendHighUnderrun f e => ⟨.txsel, (selTx .sendHigh false f e).toNat⟩
  | .rxIdleWait => ⟨.rxsel, (selRx .idle false).toNat⟩
  | .rxIdleCapture => ⟨.rxsel, (selRx .idle true).toNat⟩
  | .rxLoadHigh d => ⟨.rxsel, (selRx .loadHigh d).toNat⟩
  | .rxLoadLowNext => ⟨.rxsel, (selRx .loadLow true).toNat⟩
  | .rxLoadLowLast => ⟨.rxsel, (selRx .loadLow false).toNat⟩
  | .baseToggle => ⟨.base, 0⟩
  | .hostWriteResetReq v => ⟨.hostw, v.toNat⟩
  | .rsReqHigh d => ⟨.rssel d, 1⟩
  | .rsReqLow d => ⟨.rssel d, 0⟩
  | .txResetOverride => ⟨.rstovr .tx, 1⟩
  | .rxResetOverride => ⟨.rstovr .rx, 1⟩

/-- The format a bare table word is read in: the narrowest format that holds `nbits` bits, the first of its width in the
order of rule R52; TXSEL for anything wider, as a width rounded up to whole bytes is (DESIGN CHOICE, log entry 9). -/
def tableFormat : Nat → Format
  | 0 => .base
  | 1 => .rssel .tx
  | 2 => .rxsel
  | 3 => .rxsel
  | _ => .txsel

/-- The operation of a word of spec/opcode_table.json, its bits numbered as the table numbers them. -/
def decodeTableWord (nbits w : Nat) : Option Instr :=
  match decode (tableFormat nbits) w with
  | .ok i => some i
  | .error _ => none

/-! The stimulus and element words of rule R66. -/

/-- A tx line's word, `{v, s, e, d[7:0]}`. -/
def SinkIn.word (i : SinkIn) : BitVec 11 :=
  BitVec.ofBool i.valid ++ BitVec.ofBool i.sof ++ BitVec.ofBool i.eof ++ i.data

/-- The tx inputs a tx line's word stands for. -/
def sinkOfWord (w : BitVec 11) : SinkIn :=
  { valid := w[10], sof := w[9], eof := w[8], data := w.extractLsb' 0 8 }

/-- An rx line's word, `{rdy, dv, d[3:0]}`. -/
def RxIn.word (i : RxIn) : BitVec 6 :=
  BitVec.ofBool i.ready ++ BitVec.ofBool i.dv ++ i.data

/-- The rx inputs an rx line's word stands for. -/
def rxOfWord (w : BitVec 6) : RxIn :=
  { ready := w[5], dv := w[4], data := w.extractLsb' 0 4 }

/-- A transferred element's word, `{sof, eof, data[7:0]}`. -/
def Element.word (x : Element) : BitVec 10 :=
  BitVec.ofBool x.sof ++ BitVec.ofBool x.eof ++ x.data

/-- The element an element word stands for. -/
def elementOfWord (w : BitVec 10) : Element :=
  { sof := w[9], eof := w[8], data := w.extractLsb' 0 8 }

end Sys2Proof
end

