-- ==== Sys2Proof/Config.lean ====
section
/-!
DEFINITION. The parameters of rule R7 that the source leaves open, and the free values `draw_4()` and `draw_1()` of rules
R67 to R70, R81, R100 and R101. A parameter set is a value of `Params`, held in the state and written by no step, so that
claims range over every SYNC_DEPTH and both RST_ASSERT_MODEs. The free values are opaque constants applied to a counter
that the drawing domain advances: nothing in Lean can evaluate one (log entry 5).
-/

namespace Sys2Proof

/-- RST_ASSERT_MODE (rule R7; conflict C5, decision D11). -/
inductive AssertMode where
  | async
  | shift
deriving DecidableEq, Repr

/-- The implementation parameters of rule R7. -/
structure Params where
  /-- SYNC_DEPTH, written N, an integer ≥ 2 (D10). -/
  syncDepth : Nat
  /-- RST_ASSERT_MODE (D11). -/
  assertMode : AssertMode
  /-- RST_REQ_INIT (D12). -/
  rstReqInit : Bool
  /-- REF_OUT_INIT, OPEN (D17). -/
  refOutInit : Bool
  /-- RST_REQ_ADDR, OPEN (D24). -/
  rstReqAddr : Nat
deriving DecidableEq, Repr

/-- "SYNC_DEPTH (written N) | integer ≥ 2" (rule R7). -/
abbrev Params.Legal (p : Params) : Prop := 2 ≤ p.syncDepth

/-- The defaults of rule R7. DESIGN CHOICE (log entry 3): the two OPEN parameters, REF_OUT_INIT and RST_REQ_ADDR, are 0
here; unsafe, and no statement rests on either. -/
def Params.default : Params :=
  { syncDepth := 2, assertMode := .async, rstReqInit := false, refOutInit := false, rstReqAddr := 0 }

/-- The `n`-th `draw_4()` of the tx domain (rules R68 to R70 and R100): a free value, log entry 5. -/
opaque Config.txDraw4 : Nat → Nibble

/-- The `n`-th draw of the rx domain where a `draw_4()` is wanted (rule R101): a free value, log entry 5. -/
opaque Config.rxDraw4 : Nat → Nibble

/-- The `n`-th draw of the rx domain where a `draw_1()` is wanted (rules R81 and R101): a free value, log entry 5. -/
opaque Config.rxDraw1 : Nat → Bool

end Sys2Proof
end

