-- ==== Sys2Proof/Machine/State.lean ====
section
/-!
DEFINITION. The state of the machine: the registers of rules R14 to R24, the records of rule R34, the parameters of rule
R7, the inputs and outputs of the latest tick of each domain (rules R32 and R33), the elements transferred so far (rule R10's
`transfer`), and the stimulus lines still to run (rule R65). All of it is plain data.
-/

namespace Sys2Proof.Machine

/-- Why the machine stops with a fault: NEVER. "No behaviour of the block is treated as `fault` or `stuck`" (93), and "The
block raises no synchronous exception" (rule R106), so no constructor exists and nothing raises one. Safe: there is none. -/
inductive Fault
deriving DecidableEq, Repr

/-- Why the machine declines a step. -/
inductive Refusal where
  /-- Raised by an arm of `exec` whose instruction has no meaning yet. Safe: the run stops. No arm does so now. -/
  | notModelled (mnemonic : String)
  /-- Raised by a tick whose selector word no row matches, "A selector whose state field is `11` matches no row" (rules
  R60, R61; 93 U1: `refuse`). The state types cannot hold that code, so no tick raises it. Safe: the run would stop. -/
  | reservedSelector
  /-- Raised by RS.REQ_HIGH and RS.REQ_LOW of the base domain, an ill-formed operation: only tx and rx have a synchronizer
  (rules R52, R97). No tick runs one. Safe: the run would stop. -/
  | noSynchronizer
deriving DecidableEq, Repr

/-- What executing a row, a tick or a line answers. -/
abbrev Result (σ : Type) := Host.Outcome σ Fault Refusal

/-- The outputs of the tx domain during its latest tick (rules R33, R67), and the tick's `rst_tx` (rule R97). -/
structure TxOut where
  /-- `sink_ready`. -/
  ready : Bool
  /-- Pin `tx_en`. -/
  en : Bool
  /-- Pins `tx_data[3:0]`. -/
  data : Nibble
  /-- Pin `tx_er` (rule R20). -/
  er : Bool
  /-- Whether it was a reset tick. -/
  rst : Bool
deriving DecidableEq, Repr

/-- The outputs of the rx domain during its latest tick (rules R33, R81), and the tick's `rst_rx` (rule R97). -/
structure RxOut where
  /-- `source_valid`. -/
  valid : Bool
  /-- `source_data`. -/
  data : Byte
  /-- `source_sof`. -/
  sof : Bool
  /-- `source_eof`. -/
  eof : Bool
  /-- Whether it was a reset tick. -/
  rst : Bool
deriving DecidableEq, Repr

/-- The base domain (rule R92). -/
structure BaseDomain where
  /-- `base.ref_out` (rule R15). -/
  refOut : Bool
  /-- `ref_clk_out` during the latest base tick (rule R93). -/
  clkOut : Bool
deriving DecidableEq, Repr

/-- The tx domain. -/
structure TxDomain where
  /-- `tx.state` (rule R17). -/
  state : TxFsm
  /-- `tx.en_q` (rule R18). -/
  enQ : Bool
  /-- `tx.data_q` (rule R19). -/
  dataQ : Nibble
  /-- `tx.sync[0..N-1]`, stage 0 first (rule R16). -/
  sync : List Bool
  /-- The inputs of the latest tx tick (rule R32). -/
  inp : SinkIn
  /-- The outputs of the latest tx tick (rule R33). -/
  out : TxOut
  /-- The elements transferred on the sink, oldest first (rules R10, R36). -/
  taken : List Element
  /-- The element the latest tx tick offered, did not take, and must see again (rule R37). -/
  offer : Option Element
  /-- Record `tx_discard` (rule R34). -/
  recDiscard : Bool
  /-- Record `tx_underrun` (rule R34). -/
  recUnderrun : Bool
  /-- Record `tx_unstable` (rule R34). -/
  recUnstable : Bool
  /-- How many free values the domain has drawn: the model's own field (log entry 5). -/
  draws : Nat
deriving DecidableEq, Repr

/-- The rx domain. -/
structure RxDomain where
  /-- `rx.state` (rule R21). -/
  state : RxFsm
  /-- `rx.lo` (rule R22). -/
  lo : Nibble
  /-- `rx.hi` (rule R23). -/
  hi : Nibble
  /-- `rx.sof_pending` (rule R24). -/
  sofPending : Bool
  /-- `rx.sync[0..N-1]`, stage 0 first (rule R16). -/
  sync : List Bool
  /-- The inputs of the latest rx tick (rule R32). -/
  inp : RxIn
  /-- The outputs of the latest rx tick (rule R33). -/
  out : RxOut
  /-- The elements transferred on the source, oldest first (rules R10, R36). -/
  given : List Element
  /-- Record `rx_overrun` (rule R34). -/
  recOverrun : Bool
  /-- Record `rx_partial` (rule R34). -/
  recPartial : Bool
  /-- How many free values the domain has drawn: the model's own field (log entry 5). -/
  draws : Nat
deriving DecidableEq, Repr

/-- Where the rx inputs of a lock-step line come from (rule R65). -/
inductive RxFeed where
  /-- Written on the line. -/
  | pins (i : RxIn)
  /-- `rx loop`: `dv` and `d` are the current `tx_en` and `tx_data` pins (D23). -/
  | loop (ready : Bool)
deriving DecidableEq, Repr

/-- One stimulus line (rule R65): the agent that steps next, with its inputs. -/
inductive Line where
  /-- One tx tick. -/
  | tx (i : SinkIn)
  /-- One rx tick. -/
  | rx (i : RxIn)
  /-- One base tick. -/
  | base
  /-- One host write of `rst_req`. -/
  | host (v : Bool)
  /-- One tx tick and one rx tick in lock-step. -/
  | both (i : SinkIn) (r : RxFeed)
deriving DecidableEq, Repr

/-- The whole machine. -/
structure State where
  /-- The parameters of rule R7. -/
  par : Params
  /-- `rst_req` (rule R14). -/
  rstReq : Bool
  base : BaseDomain
  tx : TxDomain
  rx : RxDomain
  /-- The stimulus lines still to run, next first (rule R65). -/
  stim : List Line
deriving DecidableEq, Repr

/-- The tx domain at power-on (rules R16 to R19, R34, R120), for N synchronizer stages. DESIGN CHOICE (log entries 4 to 7):
`tx.data_q`, which may be any value, is 0, and the model's own fields are empty or 0. -/
def TxDomain.powerOn (n : Nat) : TxDomain :=
  { state := .idle, enQ := false, dataQ := 0, sync := List.replicate n true,
    inp := {}, out := { ready := false, en := false, data := 0, er := false, rst := false },
    taken := [], offer := none, recDiscard := false, recUnderrun := false, recUnstable := false, draws := 0 }

/-- The rx domain at power-on (rules R16, R21 to R24, R34, R120), for N synchronizer stages. DESIGN CHOICE (log entries 4 to
6): `rx.lo`, `rx.hi` and `rx.sof_pending`, which may be any value, are 0, and the model's own fields are empty or 0. -/
def RxDomain.powerOn (n : Nat) : RxDomain :=
  { state := .idle, lo := 0, hi := 0, sofPending := false, sync := List.replicate n true,
    inp := {}, out := { valid := false, data := 0, sof := false, eof := false, rst := false },
    given := [], recOverrun := false, recPartial := false, draws := 0 }

/-- The machine at power-on, "the model's launch" (rule R120), with the parameters `p` and nothing yet to run. -/
def State.powerOn (p : Params) : State :=
  { par := p, rstReq := p.rstReqInit, base := { refOut := p.refOutInit, clkOut := false },
    tx := TxDomain.powerOn p.syncDepth, rx := RxDomain.powerOn p.syncDepth, stim := [] }

/-- The machine right after reset: power-on (rule R120) with the default parameters of rule R7. -/
def State.reset : State := State.powerOn Params.default

end Sys2Proof.Machine
end

