-- ==== Sys2Proof/Machine/Flags.lean ====
section
/-!
DEFINITION. The one-bit conditions the rules compute: the handshake (rule R36), the producer's duty and its record (rule R37),
the domain reset (rule R97), and a record's setting (rules R10, R34).
-/

namespace Sys2Proof.Machine

/-- One element is transferred "exactly when `valid(t) = 1` and `ready(t) = 1` in the same tick" (rule R36). -/
def handshake (valid ready : Bool) : Bool := valid && ready

/-- A channel's transferred elements after a tick in which `x` was offered (rules R10, R36). -/
def transfer (moved : Bool) (x : Element) (log : List Element) : List Element :=
  if moved then log ++ [x] else log

/-- Rule R37's breach: an element was offered, not taken and not reset away in the previous tick, and this tick does not
offer "the same `sink_data`, `sink_sof` and `sink_eof`" with `sink_valid` 1. -/
def breaksDuty (owed : Option Element) (valid : Bool) (x : Element) : Bool :=
  match owed with
  | none => false
  | some y => !(valid && x == y)

/-- What the next tick must offer again (rule R37): the element, "if tx tick `t` had `in.sink_valid = 1` and
`sink_ready = 0` and was not a reset tick". -/
def duty (rst valid ready : Bool) (x : Element) : Option Element :=
  if valid && !ready && !rst then some x else none

/-- `record(name)`: set by `cond`, "never cleared" (rules R10, R34). -/
def record (old cond : Bool) : Bool := old || cond

/-- The last stage of a synchronizer, `d.sync[N-1]` (rule R97). -/
def lastStage (stages : List Bool) : Bool := stages.getLast?.getD false

/-- `d.sync[0] <- b`, `d.sync[i] <- d.sync[i-1]` for i in 1..N-1 (rules R98, R99). -/
def shiftIn (b : Bool) (stages : List Bool) : List Bool := (b :: stages).dropLast

/-- `d.sync[i] <- 1` for i in 0..N-1 (rules R95, R98). -/
def presetAll (stages : List Bool) : List Bool := List.replicate stages.length true

end Sys2Proof.Machine
end

