-- ==== Sys2Proof/Machine/Operands.lean ====
section
/-!
DEFINITION. The operand formations of rule R62 (all there are), the pins and other outputs that are functions of the
registers alone (rules R33, R63, R96), and the host's read of `rst_req` (rule R27).
-/

namespace Sys2Proof.Machine

/-- The transmit low nibble, `in.sink_data[3:0]` (rules R39, R62). -/
def lowNibble (b : Byte) : Nibble := b.extractLsb' 0 4

/-- The transmit high nibble, `in.sink_data[7:4]` (rules R39, R62). -/
def highNibble (b : Byte) : Nibble := b.extractLsb' 4 4

/-- The received byte `{hi, lo}`, "with `rx.hi` in bits 7:4" (rule R62). -/
def joinNibbles (hi lo : Nibble) : Byte := hi ++ lo

/-- `source_data := {rx.hi, rx.lo}`, "always, a pure function of the two latches" (rule R81). -/
def RxDomain.sourceData (r : RxDomain) : Byte := joinNibbles r.hi r.lo

/-- Pin `tx_en` as it stands now: the register `tx.en_q` (rules R18, R33). -/
def State.txEn (s : State) : Bool := s.tx.enQ

/-- Pins `tx_data[3:0]` as they stand now: the register `tx.data_q` (rules R19, R33). -/
def State.txData (s : State) : Nibble := s.tx.dataQ

/-- Pin `tx_er`, "held at 0 on every tick, including power-on and reset" (rule R20). -/
def State.txEr (_ : State) : Bool := false

/-- `phy_rst_n := ¬rst_req` "at every instant" (rule R96). -/
def State.phyRstN (s : State) : Bool := !s.rstReq

/-- Pin `ref_clk_out` as it stands now: the register `base.ref_out` (rules R15, R33). -/
def State.refClkOut (s : State) : Bool := s.base.refOut

/-- A host read of the bus address `addr`: at RST_REQ_ADDR it "returns the stored value" of field RESET (rule R27, D24);
the block has no other addressable element (rules R13, R43). -/
def State.hostRead (s : State) (addr : Nat) : Option Bool :=
  if addr = s.par.rstReqAddr then some s.rstReq else none

end Sys2Proof.Machine
end

