-- ==== Sys2Proof/Machine/Ops.lean ====
section
/-!
DEFINITION. The named operations every meaning is made of: the accessors of the state, the synchronizer chains, the common
part of a tx tick (rules R37, R67) and of an rx tick (rules R81, R87), and the one forced transfer of control, a domain reset
(rules R100, R101, R110). The block has no memory (rule R29), no exception (rule R106) and no return operation (rule R111).
-/

namespace Sys2Proof.Machine

/-- Go on from a next state; a stop stays a stop. -/
def andThen {σ τ : Type} (r : Result σ) (k : σ → Result τ) : Result τ :=
  match r with
  | .next s => k s
  | .fault e => .fault e
  | .refused e => .refused e

def State.setRstReq (s : State) (v : Bool) : State := { s with rstReq := v }
def State.setBase (s : State) (b : BaseDomain) : State := { s with base := b }
def State.setTx (s : State) (t : TxDomain) : State := { s with tx := t }
def State.setRx (s : State) (r : RxDomain) : State := { s with rx := r }
def State.setStim (s : State) (ls : List Line) : State := { s with stim := ls }

/-- The synchronizer stages of a domain (rule R16); the base domain has none. -/
def State.stages (s : State) : ClockDomain → List Bool
  | .base => []
  | .tx => s.tx.sync
  | .rx => s.rx.sync

/-- Load the synchronizer stages of a domain (rule R16). -/
def State.setStages (s : State) (d : ClockDomain) (l : List Bool) : State :=
  match d with
  | .base => s
  | .tx => s.setTx { s.tx with sync := l }
  | .rx => s.setRx { s.rx with sync := l }

/-- `rst_d(t) := d.sync[N-1]`: whether a tick of the domain taken now is a reset tick (rule R97). -/
def State.resetTick (s : State) (d : ClockDomain) : Bool := lastStage (s.stages d)

/-- What rule R98 loads into a chain: preset in ASYNC mode, shifted in SHIFT mode. -/
def assertStages (m : AssertMode) (l : List Bool) : List Bool :=
  match m with
  | .async => presetAll l
  | .shift => shiftIn true l

/-- What one TX row defines for its tick (rule R67): the offered element's flags, "`sink_ready`, the combinational enable
`en_c`, the combinational nibble `data_c`, and the next state", and the records it sets. `nib` is `none` for `draw_4()`. -/
structure TxRow where
  valid : Bool
  sof : Bool
  eof : Bool
  ready : Bool
  en : Bool
  nib : Option Nibble
  next : TxFsm
  discard : Bool
  underrun : Bool
deriving DecidableEq, Repr

/-- The element on the sink in a tx tick: the row's flags with `in.sink_data` (rules R35, R67). -/
def TxDomain.element (t : TxDomain) (w : TxRow) : Element := ⟨t.inp.data, w.sof, w.eof⟩

/-- Outputs and transfer of a tx tick (rules R36, R67), in a reset tick too (rule R100). -/
def TxDomain.drive (t : TxDomain) (w : TxRow) : TxDomain :=
  { t with
    out := { ready := w.ready, en := t.enQ, data := t.dataQ, er := false, rst := lastStage t.sync }
    taken := transfer (handshake w.valid w.ready) (t.element w) t.taken }

/-- The producer's duty over a tx tick (rule R37): the breach recorded, in a reset tick too (DEDUCED, log entry 7), and the
element the next tick owes. -/
def TxDomain.watch (t : TxDomain) (w : TxRow) : TxDomain :=
  { t with
    recUnstable := record t.recUnstable (breaksDuty t.offer w.valid (t.element w))
    offer := duty (lastStage t.sync) w.valid w.ready (t.element w) }

/-- The register writes and records of a TX row (rule R67): none in a reset tick, where TX.RESET_OVERRIDE replaces them
(rule R100; log entry 8). -/
def TxDomain.load (t : TxDomain) (w : TxRow) : TxDomain :=
  if lastStage t.sync then t
  else
    { t with
      state := w.next
      enQ := w.en
      dataQ := w.nib.getD (Config.txDraw4 t.draws)
      draws := if w.nib.isNone then t.draws + 1 else t.draws
      recDiscard := record t.recDiscard w.discard
      recUnderrun := record t.recUnderrun w.underrun }

/-- One TX row's part of a tx tick (rule R67). -/
def State.txTick (s : State) (w : TxRow) : State :=
  s.setTx (((s.tx.drive w).watch w).load w)

/-- What one RX row defines for its tick: the outputs of LOAD_LOW (`source_valid`, `source_eof`), the registers it writes, and
whether it sets `rx_partial` (rules R81 to R86). -/
structure RxRow where
  valid : Bool
  eof : Bool
  next : RxFsm
  lo : Nibble
  hi : Nibble
  sofPending : Bool
  short : Bool
deriving DecidableEq, Repr

/-- The element an RX row presents (rules R81, R85, R86). -/
def RxDomain.element (r : RxDomain) (w : RxRow) : Element := ⟨r.sourceData, r.sofPending, w.eof⟩

/-- Outputs and transfer of an rx tick (rules R36, R81), in a reset tick too (rule R101). While `source_valid` is 0 the two
flags are draws (D7). -/
def RxDomain.drive (r : RxDomain) (w : RxRow) : RxDomain :=
  { r with
    out :=
      { valid := w.valid
        data := r.sourceData
        sof := if w.valid then r.sofPending else Config.rxDraw1 r.draws
        eof := if w.valid then w.eof else Config.rxDraw1 (r.draws + 1)
        rst := lastStage r.sync }
    given := transfer (handshake w.valid r.inp.ready) (r.element w) r.given
    draws := if w.valid then r.draws else r.draws + 2 }

/-- The register writes and records of an RX row, `rx_overrun` among them (rules R81, R87): none in a reset tick, where
RX.RESET_OVERRIDE replaces them (rule R101; log entry 8). -/
def RxDomain.load (r : RxDomain) (w : RxRow) : RxDomain :=
  if lastStage r.sync then r
  else
    { r with
      state := w.next
      lo := w.lo
      hi := w.hi
      sofPending := w.sofPending
      recOverrun := record r.recOverrun (w.valid && !r.inp.ready)
      recPartial := record r.recPartial w.short }

/-- One RX row's part of an rx tick (rule R81). -/
def State.rxTick (s : State) (w : RxRow) : State :=
  s.setRx ((s.rx.drive w).load w)

/-- The registers a tx reset tick loads (rule R100): "It saves nothing", and "sends control to IDLE" (rule R110). -/
def TxDomain.forceIdle (t : TxDomain) : TxDomain :=
  { t with state := .idle, enQ := false, dataQ := Config.txDraw4 t.draws, draws := t.draws + 1 }

/-- The registers an rx reset tick loads (rule R101). -/
def RxDomain.forceIdle (r : RxDomain) : RxDomain :=
  { r with
    state := .idle
    lo := Config.rxDraw4 r.draws
    hi := Config.rxDraw4 (r.draws + 1)
    sofPending := Config.rxDraw1 (r.draws + 2)
    draws := r.draws + 3 }

/-- Latch the inputs of a tx tick (rule R11, step 1). -/
def State.withSink (s : State) (i : SinkIn) : State := s.setTx { s.tx with inp := i }

/-- Latch the inputs of an rx tick (rules R11, R51). -/
def State.withPins (s : State) (i : RxIn) : State := s.setRx { s.rx with inp := i }

end Sys2Proof.Machine
end

