-- ==== Sys2Proof/Machine/ClockReset.lean ====
section
/-!
DEFINITION. The meanings of the reference toggle (rule R93), the host write of the reset request (rule R95), the two ResetSync
rows (rules R98, R99) and the two reset overrides (rules R100, R101).
-/

namespace Sys2Proof.Machine

/-- BASE.TOGGLE (rule R93): "the toggle is unconditional". -/
def execBaseToggle (s : State) : Result State :=
  .next (s.setBase { refOut := !s.base.refOut, clkOut := s.base.refOut })

/-- HOST.WRITE_RESET_REQ v (rule R95): the store, and in ASYNC mode with v = 1 the preset of both chains. -/
def execHostWriteResetReq (v : Bool) (s : State) : Result State :=
  let t := s.setRstReq v
  if s.par.assertMode = .async ∧ v = true then
    .next ((t.setStages .tx (presetAll s.tx.sync)).setStages .rx (presetAll s.rx.sync))
  else .next t

/-- RS.REQ_HIGH of domain d (rule R98); only tx and rx have a synchronizer (log entry 12). -/
def execRsReqHigh (d : ClockDomain) (s : State) : Result State :=
  if d.hasSync then .next (s.setStages d (assertStages s.par.assertMode (s.stages d)))
  else .refused .noSynchronizer

/-- RS.REQ_LOW of domain d (rule R99), "the same in both modes". -/
def execRsReqLow (d : ClockDomain) (s : State) : Result State :=
  if d.hasSync then .next (s.setStages d (shiftIn false (s.stages d)))
  else .refused .noSynchronizer

/-- TX.RESET_OVERRIDE (rule R100). -/
def execTxResetOverride (s : State) : Result State :=
  .next (s.setTx s.tx.forceIdle)

/-- RX.RESET_OVERRIDE (rule R101). -/
def execRxResetOverride (s : State) : Result State :=
  .next (s.setRx s.rx.forceIdle)

end Sys2Proof.Machine
end

