-- ==== Sys2Proof/Machine/Receiver.lean ====
section
/-!
DEFINITION. The meanings of the five NibbleReceiver rows (rules R82 to R86), each over the common rx tick of rule R81. No row
reads `in.source_ready` to choose its next state (conflict C3). In an rx reset tick a row drives its outputs and decides its
transfer, and loads nothing (rule R101).
-/

namespace Sys2Proof.Machine

/-- RX.IDLE_WAIT (rule R82): "arms the pending start-of-frame flag". -/
def execRxIdleWait (s : State) : Result State :=
  .next (s.rxTick { valid := false, eof := false, next := .idle, lo := s.rx.lo, hi := s.rx.hi,
                    sofPending := true, short := false })

/-- RX.IDLE_CAPTURE (rule R83): the first nibble of a frame is a low nibble. -/
def execRxIdleCapture (s : State) : Result State :=
  .next (s.rxTick { valid := false, eof := false, next := .loadHigh, lo := s.rx.inp.data, hi := s.rx.hi,
                    sofPending := true, short := false })

/-- RX.LOAD_HIGH (rules R84, R91): the high nibble "unconditionally", `rx_partial` when d = 0. -/
def execRxLoadHigh (d : Bool) (s : State) : Result State :=
  .next (s.rxTick { valid := false, eof := false, next := .loadLow, lo := s.rx.lo, hi := s.rx.inp.data,
                    sofPending := s.rx.sofPending, short := !d })

/-- RX.LOAD_LOW_NEXT (rule R85): present the byte, and capture the next low nibble. -/
def execRxLoadLowNext (s : State) : Result State :=
  .next (s.rxTick { valid := true, eof := false, next := .loadHigh, lo := s.rx.inp.data, hi := s.rx.hi,
                    sofPending := false, short := false })

/-- RX.LOAD_LOW_LAST (rule R86): present the byte with end-of-frame, "closing the frame". -/
def execRxLoadLowLast (s : State) : Result State :=
  .next (s.rxTick { valid := true, eof := true, next := .idle, lo := s.rx.lo, hi := s.rx.hi,
                    sofPending := false, short := false })

end Sys2Proof.Machine
end

