-- ==== Sys2Proof/Machine/Transmitter.lean ====
section
/-!
DEFINITION. The meanings of the seven NibbleTransmitter rows (rules R68 to R74), each over the common tx tick of rule R67. In a
tx reset tick a row drives its outputs and decides its transfer, and loads nothing (rule R100).
-/

namespace Sys2Proof.Machine

/-- TX.IDLE_WAIT (rule R68). -/
def execTxIdleWait (f e : Bool) (s : State) : Result State :=
  .next (s.txTick { valid := false, sof := f, eof := e, ready := true, en := false, nib := none,
                    next := .idle, discard := false, underrun := false })

/-- TX.IDLE_DISCARD (rule R69; conflict C1): "consumed by the handshake, never transmitted". -/
def execTxIdleDiscard (e : Bool) (s : State) : Result State :=
  .next (s.txTick { valid := true, sof := false, eof := e, ready := true, en := false, nib := none,
                    next := .idle, discard := true, underrun := false })

/-- TX.IDLE_START (rule R70): "immediately deasserts readiness". -/
def execTxIdleStart (e : Bool) (s : State) : Result State :=
  .next (s.txTick { valid := true, sof := true, eof := e, ready := false, en := false, nib := none,
                    next := .sendLow, discard := false, underrun := false })

/-- TX.SEND_LOW (rule R71; conflict C2): the low nibble, `tx_underrun` when v = 0. -/
def execTxSendLow (v f e : Bool) (s : State) : Result State :=
  .next (s.txTick { valid := v, sof := f, eof := e, ready := false, en := true, nib := some (lowNibble s.tx.inp.data),
                    next := .sendHigh, discard := false, underrun := !v })

/-- TX.SEND_HIGH_LAST (rule R72): the high nibble of a frame's last byte, which is taken. -/
def execTxSendHighLast (f : Bool) (s : State) : Result State :=
  .next (s.txTick { valid := true, sof := f, eof := true, ready := true, en := true,
                    nib := some (highNibble s.tx.inp.data), next := .idle, discard := false, underrun := false })

/-- TX.SEND_HIGH_NEXT (rule R73): the high nibble of a byte that is not last, which is taken. -/
def execTxSendHighNext (f : Bool) (s : State) : Result State :=
  .next (s.txTick { valid := true, sof := f, eof := false, ready := true, en := true,
                    nib := some (highNibble s.tx.inp.data), next := .sendLow, discard := false, underrun := false })

/-- TX.SEND_HIGH_UNDERRUN (rule R74; conflict C2): a high nibble with nothing offered. -/
def execTxSendHighUnderrun (f e : Bool) (s : State) : Result State :=
  .next (s.txTick { valid := false, sof := f, eof := e, ready := true, en := true,
                    nib := some (highNibble s.tx.inp.data), next := .sendLow, discard := false, underrun := true })

end Sys2Proof.Machine
end

