-- ==== Sys2Proof/Machine/Dispatch.lean ====
section
/-!
DEFINITION. One arm per operation of the opcode map (rule R59).
-/

namespace Sys2Proof.Machine

def exec (i : Instr) (s : State) : Host.Outcome State Fault Refusal :=
  match i with
  -- NibbleTransmitter, rules R68 to R74
  | .txIdleWait f e => Sys2Proof.Machine.execTxIdleWait f e s
  | .txIdleDiscard e => Sys2Proof.Machine.execTxIdleDiscard e s
  | .txIdleStart e => Sys2Proof.Machine.execTxIdleStart e s
  | .txSendLow v f e => Sys2Proof.Machine.execTxSendLow v f e s
  | .txSendHighLast f => Sys2Proof.Machine.execTxSendHighLast f s
  | .txSendHighNext f => Sys2Proof.Machine.execTxSendHighNext f s
  | .txSendHighUnderrun f e => Sys2Proof.Machine.execTxSendHighUnderrun f e s
  -- NibbleReceiver, rules R82 to R86
  | .rxIdleWait => Sys2Proof.Machine.execRxIdleWait s
  | .rxIdleCapture => Sys2Proof.Machine.execRxIdleCapture s
  | .rxLoadHigh d => Sys2Proof.Machine.execRxLoadHigh d s
  | .rxLoadLowNext => Sys2Proof.Machine.execRxLoadLowNext s
  | .rxLoadLowLast => Sys2Proof.Machine.execRxLoadLowLast s
  -- ClockDomainGenerator, the reset request and ResetSync, rules R93 to R101
  | .baseToggle => Sys2Proof.Machine.execBaseToggle s
  | .hostWriteResetReq v => Sys2Proof.Machine.execHostWriteResetReq v s
  | .rsReqHigh d => Sys2Proof.Machine.execRsReqHigh d s
  | .rsReqLow d => Sys2Proof.Machine.execRsReqLow d s
  | .txResetOverride => Sys2Proof.Machine.execTxResetOverride s
  | .rxResetOverride => Sys2Proof.Machine.execRxResetOverride s

end Sys2Proof.Machine
end

