-- ==== Sys2Proof/Machine/Tick.lean ====
section
/-!
DEFINITION. How the rows of one tick are selected and composed (rules R11, R52, R97, R105, R116): assemble the selector words
from the registers and inputs as they stand at the start of the tick, decode each, and execute the FSM row, the override of a
reset tick, and the ResetSync row. Also how an operation is put where the next step runs it.
-/

namespace Sys2Proof.Machine

/-- Decode one selector word and execute the operation it selects (rule R52). -/
def runRow (sel : Selector) (s : State) : Result State :=
  match decode sel.fmt sel.word with
  | .ok i => exec i s
  | .error _ => .refused .reservedSelector

/-- RSTOVR of a tick whose `rst_d` was `rst`: "A value of 0 selects no override" (rule R58). -/
def runOverride (d : ClockDomain) (rst : Bool) (s : State) : Result State :=
  if rst then runRow ⟨.rstovr d, rst.toNat⟩ s else .next s

/-- The rest of a tick of domain d after its FSM row: the override if the tick is a reset tick (rules R100, R101), and the
ResetSync row for the request it sampled (rules R57, R98, R99). -/
def finishTick (d : ClockDomain) (rst req : Bool) (s : State) : Result State :=
  andThen (runOverride d rst s) (runRow ⟨.rssel d, req.toNat⟩)

/-- The selector word of a tx tick with these inputs (rule R55). -/
def State.txSel (s : State) (i : SinkIn) : Selector := ⟨.txsel, (selTx s.tx.state i.valid i.sof i.eof).toNat⟩

/-- The selector word of an rx tick with these inputs (rule R56). -/
def State.rxSel (s : State) (i : RxIn) : Selector := ⟨.rxsel, (selRx s.rx.state i.dv).toNat⟩

/-- One tx tick (rule R116: "one TX row + RS row (+ TX.RESET_OVERRIDE) per `clk_tx` edge"). -/
def tickTx (i : SinkIn) (s : State) : Result State :=
  andThen (runRow (s.txSel i) (s.withSink i)) (finishTick .tx (s.resetTick .tx) s.rstReq)

/-- One rx tick (rule R116). -/
def tickRx (i : RxIn) (s : State) : Result State :=
  andThen (runRow (s.rxSel i) (s.withPins i)) (finishTick .rx (s.resetTick .rx) s.rstReq)

/-- The rx inputs of a lock-step line; `loop` takes the tx pins "as they stand at the start of the tick" (D23, rule R65). -/
def RxFeed.inputs (r : RxFeed) (s : State) : RxIn :=
  match r with
  | .pins i => i
  | .loop ready => { dv := s.txEn, data := s.txData, ready := ready }

/-- One stimulus line (rule R65). A lock-step line "steps tx and then rx in the same tick" (D23). -/
def runLine (l : Line) (s : State) : Result State :=
  match l with
  | .tx i => tickTx i s
  | .rx i => tickRx i s
  | .base => runRow ⟨.base, 0⟩ s
  | .host v => runRow ⟨.hostw, v.toNat⟩ s
  | .both i r => andThen (tickTx i s) (tickRx (r.inputs s))

/-- One step of the machine: the next stimulus line. With no line left no clock has an edge and no host writes, so every
register keeps its value (rule R118; log entry 2). -/
def advance (s : State) : Result State :=
  match s.stim with
  | [] => .next s
  | l :: rest => runLine l (s.setStim rest)

/-- A stimulus line in front of the others. -/
def State.push (s : State) (l : Line) : State := s.setStim (l :: s.stim)

/-- `tx.state` set to `q`, and a tx line with these flags and `sink_data` 0 in front. -/
def State.placeTx (s : State) (q : TxFsm) (v f e : Bool) : State :=
  (s.setTx { s.tx with state := q }).push (.tx { valid := v, data := 0, sof := f, eof := e })

/-- `rx.state` set to `q`, and an rx line with this `rx_dv`, `rx_data` 0 and a ready consumer in front. -/
def State.placeRx (s : State) (q : RxFsm) (d : Bool) : State :=
  (s.setRx { s.rx with state := q }).push (.rx { dv := d, data := 0, ready := true })

/-- An idle tick of a synchronizer's domain in front. -/
def State.pushTick (s : State) (d : ClockDomain) : State :=
  match d with
  | .base => s.push .base
  | .tx => s.push (.tx {})
  | .rx => s.push (.rx {})

/-- All that it takes for the very next step to run the operation (log entry 10): the selector's state code in the FSM's
register, its input bits on the line that runs next, the sampled request in `rst_req`, the domain reset in the chain. -/
def State.place (s : State) (i : Instr) : State :=
  match i with
  | .txIdleWait f e => s.placeTx .idle false f e
  | .txIdleDiscard e => s.placeTx .idle true false e
  | .txIdleStart e => s.placeTx .idle true true e
  | .txSendLow v f e => s.placeTx .sendLow v f e
  | .txSendHighLast f => s.placeTx .sendHigh true f true
  | .txSendHighNext f => s.placeTx .sendHigh true f false
  | .txSendHighUnderrun f e => s.placeTx .sendHigh false f e
  | .rxIdleWait => s.placeRx .idle false
  | .rxIdleCapture => s.placeRx .idle true
  | .rxLoadHigh d => s.placeRx .loadHigh d
  | .rxLoadLowNext => s.placeRx .loadLow true
  | .rxLoadLowLast => s.placeRx .loadLow false
  | .baseToggle => s.push .base
  | .hostWriteResetReq v => s.push (.host v)
  | .rsReqHigh d => (s.setRstReq true).pushTick d
  | .rsReqLow d => (s.setRstReq false).pushTick d
  | .txResetOverride => (s.setStages .tx (presetAll s.tx.sync)).push (.tx {})
  | .rxResetOverride => (s.setStages .rx (presetAll s.rx.sync)).push (.rx {})

end Sys2Proof.Machine
end

