-- ==== Sys2Proof/Machine/Step.lean ====
section
/-!
DEFINITION. The step of the machine, and the placing of a table word where the next step runs it.
-/

namespace Sys2Proof.Machine

/-- One step of one agent (rule R116): the next line of the stimulus. -/
def step (s : State) : Host.Outcome State Fault Refusal := advance s

/-- The state with the operation of a table word where `step` runs it next; unchanged where the word selects none. -/
def State.withFetchWord (s : State) (nbits w : Nat) : State :=
  match decodeTableWord nbits w with
  | some i => s.place i
  | none => s

end Sys2Proof.Machine
end

