-- ==== Sys2Proof/Machine/Stimulus.lean ====
section
/-!
DEFINITION. The pseudo-lines of the stimulus notation and their expansions (rule R65), and the elements and nibbles a frame of
bytes stands for (rules R38, R39).
-/

namespace Sys2Proof.Machine

/-- `for each k = 1..n, two lines tx v=1 d=bk s=0 e=[k=n]` (rule R65). -/
def frameTail : List Byte → List SinkIn
  | [] => []
  | b :: bs =>
    let i : SinkIn := { valid := true, data := b, sof := false, eof := bs.isEmpty }
    i :: i :: frameTail bs

/-- The sink inputs of `txframe b0 b1 … bn`: "three lines `tx v=1 d=b0 s=1 e=[n=0]`", then the tail (rule R65). -/
def frameInputs : List Byte → List SinkIn
  | [] => []
  | b :: bs =>
    let i : SinkIn := { valid := true, data := b, sof := true, eof := bs.isEmpty }
    i :: i :: i :: frameTail bs

/-- `txframe b0 b1 … bn` (rule R65). -/
def txframe (bs : List Byte) : List Line := (frameInputs bs).map Line.tx

/-- The rx inputs of the byte lines of `rxbytes` (rule R65). -/
def byteInputs : List Byte → List RxIn
  | [] => []
  | b :: bs => { dv := true, data := b.extractLsb' 0 4 } :: { dv := true, data := b.extractLsb' 4 4 } :: byteInputs bs

/-- `rxbytes b0 … bn`, closed by "one line `rx dv=0`" (rule R65). -/
def rxbytes (bs : List Byte) : List Line := (byteInputs bs).map Line.rx ++ [.rx { dv := false }]

/-- `idle tx k` (rule R65). -/
def idleTx (k : Nat) : List Line := List.replicate k (.tx {})

/-- `idle rx k` (rule R65). -/
def idleRx (k : Nat) : List Line := List.replicate k (.rx {})

/-- Sink inputs on lock-step loopback lines, `both … | rx loop` with a ready consumer (rule R65, D23). -/
def loopback (is : List SinkIn) : List Line := is.map (fun i => .both i (.loop true))

/-- The elements of a frame after its first (rule R38). -/
def frameOfTail : List Byte → List Element
  | [] => []
  | b :: bs => ⟨b, false, bs.isEmpty⟩ :: frameOfTail bs

/-- The well-formed frame of these bytes: sof on the first element alone, eof on the last alone (rule R38). -/
def frameOf : List Byte → List Element
  | [] => []
  | b :: bs => ⟨b, true, bs.isEmpty⟩ :: frameOfTail bs

/-- The nibbles of bytes on the wire, "low nibble first, high nibble second" (rule R39). -/
def nibblesOf : List Byte → List Nibble
  | [] => []
  | b :: bs => b.extractLsb' 0 4 :: b.extractLsb' 4 4 :: nibblesOf bs

end Sys2Proof.Machine
end

