-- ==== Sys2Proof/Safety.lean ====
section
/-!
DEFINITION. The terms claims use: running lines through `step`, counting a domain's ticks, being out of reset or held in
reset (rules R97, R103, R104), runs without a record (rule R34), well-formed element sequences (rule R38), and the invariant
every step keeps. The block has no error state (rules R106, R119), so a safe run is one that meets the premises a claim names.
-/

namespace Sys2Proof.Machine

/-- Run exactly these lines by the machine's own steps. -/
def runLines (ls : List Line) (s : State) : Result State :=
  Host.Core.run Sys2Proof.core ls.length (s.setStim ls)

/-- Whether a line holds a tick of the domain (rules R65, R116). -/
def Line.ticks (d : ClockDomain) (l : Line) : Bool :=
  match l with
  | .tx _ => d == .tx
  | .rx _ => d == .rx
  | .base => d == .base
  | .host _ => false
  | .both _ _ => d == .tx || d == .rx

/-- How many ticks of the domain these lines hold. -/
def ticksOf (d : ClockDomain) (ls : List Line) : Nat := ls.countP (Line.ticks d)

/-- Whether a line is a host write (rule R95). -/
def Line.isHost (l : Line) : Bool :=
  match l with
  | .host _ => true
  | .tx _ => false
  | .rx _ => false
  | .base => false
  | .both _ _ => false

/-- No line is a host write, so `rst_req` stays as it is (rule R14). -/
abbrev HostQuiet (ls : List Line) : Prop := ∀ l ∈ ls, l.isHost = false

/-- The consumer's duty of rule R87, kept in every line: ready in every rx tick. -/
def Line.consumerReady (l : Line) : Bool :=
  match l with
  | .rx i => i.ready
  | .both _ (.pins i) => i.ready
  | .both _ (.loop r) => r
  | .tx _ => true
  | .base => true
  | .host _ => true

/-- Domain d is out of reset and stays so while the host is quiet: no request, and no 1 left in its chain (rule R103). -/
abbrev State.Released (s : State) (d : ClockDomain) : Prop :=
  s.rstReq = false ∧ ∀ b ∈ s.stages d, b = false

/-- Domain d is held in reset: the request stands and every stage of its chain is 1 (rule R104). -/
abbrev State.Held (s : State) (d : ClockDomain) : Prop :=
  s.rstReq = true ∧ ∀ b ∈ s.stages d, b = true

/-- The premise "no record set" (rule R34). -/
abbrev State.NoRecord (s : State) : Prop :=
  s.tx.recDiscard = false ∧ s.tx.recUnderrun = false ∧ s.tx.recUnstable = false ∧
  s.rx.recOverrun = false ∧ s.rx.recPartial = false

/-- The state with every record cleared: what the hardware has (rule R34: the records "are not hardware state"). -/
def State.eraseRecords (s : State) : State :=
  { s with
    tx := { s.tx with recDiscard := false, recUnderrun := false, recUnstable := false }
    rx := { s.rx with recOverrun := false, recPartial := false } }

/-- Read elements one by one, knowing whether a frame is open: sof is set exactly on a frame's first element, and eof closes
the frame (rule R38). `none` if an element breaks the rule, else whether a frame is still open. -/
def frameScan : Bool → List Element → Option Bool
  | inside, [] => some inside
  | inside, x :: xs => if x.sof = !inside then frameScan (!x.eof) xs else none

/-- The invariant of the machine. A legal SYNC_DEPTH and chains of that many stages (rules R7, R16); in ASYNC mode the stages
are 1 while the request is held (rule R98); `tx_er` low (rule R20); SEND_HIGH follows a tick with enable (rules R67, R71); an
element is owed only inside a frame (rules R37, R70, R71); `source_valid` lasts one tick, so a tick that leaves the receiver in
LOAD_LOW presented nothing (rule R87); and in LOAD_HIGH sof_pending is 1 exactly if the latest tick presented nothing, that is,
came from IDLE (rules R83, R85, R89). -/
abbrev State.Inv (s : State) : Prop :=
  s.par.Legal ∧
  s.tx.sync.length = s.par.syncDepth ∧ s.rx.sync.length = s.par.syncDepth ∧
  (s.par.assertMode = .async → s.rstReq = true → (∀ b ∈ s.tx.sync, b = true) ∧ (∀ b ∈ s.rx.sync, b = true)) ∧
  s.tx.out.er = false ∧
  (s.tx.state = .sendHigh → s.tx.enQ = true) ∧
  (s.tx.state = .idle → s.tx.offer = none) ∧
  (s.rx.state = .loadLow → s.rx.out.valid = false) ∧
  (s.rx.state = .loadHigh → s.rx.sofPending = !s.rx.out.valid)

end Sys2Proof.Machine
end

