-- ==== Sys2Proof/Certificates/Slice0/Obligations.lean ====
section
/-!
DEFINITION. The statements for the provers. The first group says what one operation does, the next state written out whole, so
that each is result, frame and completion at once: a field the update does not name is unchanged. The second group says what a
tick, a line or a run does.
-/

open Sys2Proof
open Sys2Proof.Machine

/-! ## Encoding -/

/-- Rule R59, a few words written out bit by bit: one or more per format. -/
def Obligations.OpcodeMapWords : Prop :=
  decode .txsel 0b00110 = .ok (.txIdleStart false) ∧
  decode .txsel 0b10111 = .ok (.txSendHighLast true) ∧
  decode .txsel 0b01101 = .ok (.txSendLow true false true) ∧
  decode .txsel 0b11000 = .error .reservedState ∧
  decode .rxsel 0b101 = .ok .rxLoadLowNext ∧
  decode .rxsel 0b010 = .ok (.rxLoadHigh false) ∧
  decode .rxsel 0b111 = .error .reservedState ∧
  decode (.rssel .rx) 0b1 = .ok (.rsReqHigh .rx) ∧
  decode (.rssel .tx) 0b0 = .ok (.rsReqLow .tx) ∧
  decode (.rstovr .tx) 0b1 = .ok .txResetOverride ∧
  decode (.rstovr .rx) 0b0 = .error .noOverride ∧
  decode .base 0 = .ok .baseToggle ∧
  decode .hostw 0b1 = .ok (.hostWriteResetReq true)

/-- Rule R60: the case list of each state, exactly one row for every selector of a state, none for the code `11`. -/
def Obligations.DecodeCompleteness : Prop :=
  (∀ f e, decode .txsel (selTx .idle false f e).toNat = .ok (.txIdleWait f e)) ∧
  (∀ e, decode .txsel (selTx .idle true false e).toNat = .ok (.txIdleDiscard e)) ∧
  (∀ e, decode .txsel (selTx .idle true true e).toNat = .ok (.txIdleStart e)) ∧
  (∀ v f e, decode .txsel (selTx .sendLow v f e).toNat = .ok (.txSendLow v f e)) ∧
  (∀ f e, decode .txsel (selTx .sendHigh false f e).toNat = .ok (.txSendHighUnderrun f e)) ∧
  (∀ f, decode .txsel (selTx .sendHigh true f true).toNat = .ok (.txSendHighLast f)) ∧
  (∀ f, decode .txsel (selTx .sendHigh true f false).toNat = .ok (.txSendHighNext f)) ∧
  (∀ w : BitVec 5, w.extractLsb' 3 2 ≠ 0b11#2 → (txRows.filter (fun r => r.matches w)).length = 1) ∧
  (∀ w : BitVec 3, w.extractLsb' 1 2 ≠ 0b11#2 → (rxRows.filter (fun r => r.matches w)).length = 1) ∧
  (∀ (d : ClockDomain) (w : BitVec 1), ((rsRows d).filter (fun r => r.matches w)).length = 1) ∧
  (∀ w : BitVec 5, w.extractLsb' 3 2 = 0b11#2 →
    txRows.filter (fun r => r.matches w) = [] ∧ decode .txsel w.toNat = .error .reservedState) ∧
  (∀ w : BitVec 3, w.extractLsb' 1 2 = 0b11#2 →
    rxRows.filter (fun r => r.matches w) = [] ∧ decode .rxsel w.toNat = .error .reservedState)

/-- Rules R52, R59: the encoder's selector of a well-formed operation decodes to it, every operand at every value. -/
def Obligations.DecodeOfEncode : Prop :=
  ∀ i : Instr, i.WellFormed → decode (encode i).fmt (encode i).word = .ok i

/-- Rules R52, R59: a selector word that selects an operation is that operation's only one, and the operation is well formed. -/
def Obligations.EncodeOfDecode : Prop :=
  ∀ (fmt : Format) (w : Nat) (i : Instr), decode fmt w = .ok i → i.WellFormed ∧ encode i = ⟨fmt, w⟩

/-- Rule R66: the stimulus and element words carry their fields, no bit lost in either direction, and its two examples. -/
def Obligations.StimulusWordsRoundTrip : Prop :=
  (∀ i : SinkIn, sinkOfWord i.word = i) ∧ (∀ w, (sinkOfWord w).word = w) ∧
  (∀ i : RxIn, rxOfWord i.word = i) ∧ (∀ w, (rxOfWord w).word = w) ∧
  (∀ x : Element, elementOfWord x.word = x) ∧ (∀ w, (elementOfWord w).word = w) ∧
  SinkIn.word { valid := true, data := 0xA5, sof := true, eof := true } = 0x7A5#11 ∧
  Element.word ⟨0xA5, true, true⟩ = 0x3A5#10

/-! ## What one operation does: NibbleTransmitter -/

/-- Rule R68, with the common part, R67, and the watch of R37; the nibble `draw_4()` is a free value (log entry 5). -/
def Obligations.TxIdleWaitResult : Prop :=
  (∀ w : BitVec 5, w &&& 0b11100#5 = 0b00000#5 → decode .txsel w.toNat = .ok (.txIdleWait w[1] w[0])) ∧
  ∀ (f e : Bool) (s : State), s.resetTick .tx = false →
    exec (.txIdleWait f e) s = .next
      { s with
        tx :=
          { s.tx with
            state := .idle
            enQ := false
            dataQ := Config.txDraw4 s.tx.draws
            draws := s.tx.draws + 1
            out := { ready := true, en := s.tx.enQ, data := s.tx.dataQ, er := false, rst := false }
            offer := none
            recUnstable := s.tx.recUnstable || breaksDuty s.tx.offer false ⟨s.tx.inp.data, f, e⟩ } }

/-- Rule R69; the nibble `draw_4()` is a free value (log entry 5). -/
def Obligations.TxIdleDiscardResult : Prop :=
  (∀ w : BitVec 5, w &&& 0b11110#5 = 0b00100#5 → decode .txsel w.toNat = .ok (.txIdleDiscard w[0])) ∧
  ∀ (e : Bool) (s : State), s.resetTick .tx = false →
    exec (.txIdleDiscard e) s = .next
      { s with
        tx :=
          { s.tx with
            state := .idle
            enQ := false
            dataQ := Config.txDraw4 s.tx.draws
            draws := s.tx.draws + 1
            out := { ready := true, en := s.tx.enQ, data := s.tx.dataQ, er := false, rst := false }
            taken := s.tx.taken ++ [⟨s.tx.inp.data, false, e⟩]
            offer := none
            recDiscard := true
            recUnstable := s.tx.recUnstable || breaksDuty s.tx.offer true ⟨s.tx.inp.data, false, e⟩ } }

/-- Rule R70; the nibble `draw_4()` is a free value (log entry 5). -/
def Obligations.TxIdleStartResult : Prop :=
  (∀ w : BitVec 5, w &&& 0b11110#5 = 0b00110#5 → decode .txsel w.toNat = .ok (.txIdleStart w[0])) ∧
  ∀ (e : Bool) (s : State), s.resetTick .tx = false →
    exec (.txIdleStart e) s = .next
      { s with
        tx :=
          { s.tx with
            state := .sendLow
            enQ := false
            dataQ := Config.txDraw4 s.tx.draws
            draws := s.tx.draws + 1
            out := { ready := false, en := s.tx.enQ, data := s.tx.dataQ, er := false, rst := false }
            offer := some ⟨s.tx.inp.data, true, e⟩
            recUnstable := s.tx.recUnstable || breaksDuty s.tx.offer true ⟨s.tx.inp.data, true, e⟩ } }

/-- Rule R71. -/
def Obligations.TxSendLowResult : Prop :=
  (∀ w : BitVec 5, w &&& 0b11000#5 = 0b01000#5 → decode .txsel w.toNat = .ok (.txSendLow w[2] w[1] w[0])) ∧
  ∀ (v f e : Bool) (s : State), s.resetTick .tx = false →
    exec (.txSendLow v f e) s = .next
      { s with
        tx :=
          { s.tx with
            state := .sendHigh
            enQ := true
            dataQ := s.tx.inp.data.extractLsb' 0 4
            out := { ready := false, en := s.tx.enQ, data := s.tx.dataQ, er := false, rst := false }
            offer := if v then some ⟨s.tx.inp.data, f, e⟩ else none
            recUnderrun := s.tx.recUnderrun || !v
            recUnstable := s.tx.recUnstable || breaksDuty s.tx.offer v ⟨s.tx.inp.data, f, e⟩ } }

/-- Rule R72. -/
def Obligations.TxSendHighLastResult : Prop :=
  (∀ w : BitVec 5, w &&& 0b11101#5 = 0b10101#5 → decode .txsel w.toNat = .ok (.txSendHighLast w[1])) ∧
  ∀ (f : Bool) (s : State), s.resetTick .tx = false →
    exec (.txSendHighLast f) s = .next
      { s with
        tx :=
          { s.tx with
            state := .idle
            enQ := true
            dataQ := s.tx.inp.data.extractLsb' 4 4
            out := { ready := true, en := s.tx.enQ, data := s.tx.dataQ, er := false, rst := false }
            taken := s.tx.taken ++ [⟨s.tx.inp.data, f, true⟩]
            offer := none
            recUnstable := s.tx.recUnstable || breaksDuty s.tx.offer true ⟨s.tx.inp.data, f, true⟩ } }

/-- Rule R73. -/
def Obligations.TxSendHighNextResult : Prop :=
  (∀ w : BitVec 5, w &&& 0b11101#5 = 0b10100#5 → decode .txsel w.toNat = .ok (.txSendHighNext w[1])) ∧
  ∀ (f : Bool) (s : State), s.resetTick .tx = false →
    exec (.txSendHighNext f) s = .next
      { s with
        tx :=
          { s.tx with
            state := .sendLow
            enQ := true
            dataQ := s.tx.inp.data.extractLsb' 4 4
            out := { ready := true, en := s.tx.enQ, data := s.tx.dataQ, er := false, rst := false }
            taken := s.tx.taken ++ [⟨s.tx.inp.data, f, false⟩]
            offer := none
            recUnstable := s.tx.recUnstable || breaksDuty s.tx.offer true ⟨s.tx.inp.data, f, false⟩ } }

/-- Rule R74. -/
def Obligations.TxSendHighUnderrunResult : Prop :=
  (∀ w : BitVec 5, w &&& 0b11100#5 = 0b10000#5 → decode .txsel w.toNat = .ok (.txSendHighUnderrun w[1] w[0])) ∧
  ∀ (f e : Bool) (s : State), s.resetTick .tx = false →
    exec (.txSendHighUnderrun f e) s = .next
      { s with
        tx :=
          { s.tx with
            state := .sendLow
            enQ := true
            dataQ := s.tx.inp.data.extractLsb' 4 4
            out := { ready := true, en := s.tx.enQ, data := s.tx.dataQ, er := false, rst := false }
            offer := none
            recUnderrun := true
            recUnstable := s.tx.recUnstable || breaksDuty s.tx.offer false ⟨s.tx.inp.data, f, e⟩ } }

/-- Rules R67 and R100, the FSM row's side of a tx reset tick: every TX row answers a next state whose outputs and transfer are
those of the same row out of reset, and loads no register and sets no record of its own, which leaves both to the override (log
entry 8). That the watch of R37 goes on in a reset tick is the model's reading (log entry 7). -/
def Obligations.TxRowsInResetTick : Prop :=
  ∀ (i : Instr) (s : State), (encode i).fmt = .txsel → s.resetTick .tx = true →
    ∃ t u, exec i s = .next t ∧ exec i { s with tx := { s.tx with sync := [] } } = .next u ∧
      t.tx.out = { u.tx.out with rst := true } ∧ t.tx.taken = u.tx.taken ∧
      t = { s with
            tx :=
              { s.tx with
                out := t.tx.out
                taken := t.tx.taken
                offer := none
                recUnstable := u.tx.recUnstable } }

/-! ## What one operation does: NibbleReceiver -/

/-- Rule R82, with the common part, R81; `source_sof` and `source_eof` are free values here (log entry 5). -/
def Obligations.RxIdleWaitResult : Prop :=
  (∀ w : BitVec 3, w &&& 0b111#3 = 0b000#3 → decode .rxsel w.toNat = .ok .rxIdleWait) ∧
  ∀ s : State, s.resetTick .rx = false →
    exec .rxIdleWait s = .next
      { s with
        rx :=
          { s.rx with
            state := .idle
            sofPending := true
            out :=
              { valid := false, data := s.rx.hi ++ s.rx.lo, sof := Config.rxDraw1 s.rx.draws,
                eof := Config.rxDraw1 (s.rx.draws + 1), rst := false }
            draws := s.rx.draws + 2 } }

/-- Rule R83; `source_sof` and `source_eof` are free values here (log entry 5). -/
def Obligations.RxIdleCaptureResult : Prop :=
  (∀ w : BitVec 3, w &&& 0b111#3 = 0b001#3 → decode .rxsel w.toNat = .ok .rxIdleCapture) ∧
  ∀ s : State, s.resetTick .rx = false →
    exec .rxIdleCapture s = .next
      { s with
        rx :=
          { s.rx with
            state := .loadHigh
            sofPending := true
            lo := s.rx.inp.data
            out :=
              { valid := false, data := s.rx.hi ++ s.rx.lo, sof := Config.rxDraw1 s.rx.draws,
                eof := Config.rxDraw1 (s.rx.draws + 1), rst := false }
            draws := s.rx.draws + 2 } }

/-- Rule R84, and R91's "whatever high nibble is sampled"; `source_sof` and `source_eof` are free values here (log entry 5). -/
def Obligations.RxLoadHighResult : Prop :=
  (∀ w : BitVec 3, w &&& 0b110#3 = 0b010#3 → decode .rxsel w.toNat = .ok (.rxLoadHigh w[0])) ∧
  ∀ (d : Bool) (s : State), s.resetTick .rx = false →
    exec (.rxLoadHigh d) s = .next
      { s with
        rx :=
          { s.rx with
            state := .loadLow
            hi := s.rx.inp.data
            recPartial := s.rx.recPartial || !d
            out :=
              { valid := false, data := s.rx.hi ++ s.rx.lo, sof := Config.rxDraw1 s.rx.draws,
                eof := Config.rxDraw1 (s.rx.draws + 1), rst := false }
            draws := s.rx.draws + 2 } }

/-- Rule R85, with the transfer and `rx_overrun` of R81. -/
def Obligations.RxLoadLowNextResult : Prop :=
  (∀ w : BitVec 3, w &&& 0b111#3 = 0b101#3 → decode .rxsel w.toNat = .ok .rxLoadLowNext) ∧
  ∀ s : State, s.resetTick .rx = false →
    exec .rxLoadLowNext s = .next
      { s with
        rx :=
          { s.rx with
            state := .loadHigh
            sofPending := false
            lo := s.rx.inp.data
            out := { valid := true, data := s.rx.hi ++ s.rx.lo, sof := s.rx.sofPending, eof := false, rst := false }
            given :=
              if s.rx.inp.ready then s.rx.given ++ [⟨s.rx.hi ++ s.rx.lo, s.rx.sofPending, false⟩] else s.rx.given
            recOverrun := s.rx.recOverrun || !s.rx.inp.ready } }

/-- Rule R86, with the transfer and `rx_overrun` of R81. -/
def Obligations.RxLoadLowLastResult : Prop :=
  (∀ w : BitVec 3, w &&& 0b111#3 = 0b100#3 → decode .rxsel w.toNat = .ok .rxLoadLowLast) ∧
  ∀ s : State, s.resetTick .rx = false →
    exec .rxLoadLowLast s = .next
      { s with
        rx :=
          { s.rx with
            state := .idle
            sofPending := false
            out := { valid := true, data := s.rx.hi ++ s.rx.lo, sof := s.rx.sofPending, eof := true, rst := false }
            given :=
              if s.rx.inp.ready then s.rx.given ++ [⟨s.rx.hi ++ s.rx.lo, s.rx.sofPending, true⟩] else s.rx.given
            recOverrun := s.rx.recOverrun || !s.rx.inp.ready } }

/-- Rules R81 and R101, the FSM row's side of an rx reset tick: every RX row answers a next state whose outputs and transfer are
those of the same row out of reset, and loads no register and sets no record, which leaves both to the override (log entry 8).
While source_valid is 0 both executions are taken with the same draws of source_sof and source_eof, and draw equally often (log
entry 5). -/
def Obligations.RxRowsInResetTick : Prop :=
  ∀ (i : Instr) (s : State), (encode i).fmt = .rxsel → s.resetTick .rx = true →
    ∃ t u, exec i s = .next t ∧ exec i { s with rx := { s.rx with sync := [] } } = .next u ∧
      t.rx.out = { u.rx.out with rst := true } ∧ t.rx.given = u.rx.given ∧
      t = { s with rx := { s.rx with out := t.rx.out, given := t.rx.given, draws := u.rx.draws } }

/-! ## What one operation does: clock, reset request, synchronizers, overrides -/

/-- Rule R93. -/
def Obligations.BaseToggleResult : Prop :=
  decode .base 0 = .ok .baseToggle ∧
  ∀ s : State, exec .baseToggle s = .next { s with base := { clkOut := s.base.refOut, refOut := !s.base.refOut } }

/-- Rules R95 and R96: the PHY reset output follows the stored bit in every state; a write stores, presets every stage of both
chains in ASYNC mode, and shows on the PHY reset output at once. -/
def Obligations.HostWriteResult : Prop :=
  (∀ v : Bool, decode .hostw v.toNat = .ok (.hostWriteResetReq v)) ∧
  (∀ s : State, s.phyRstN = !s.rstReq) ∧
  ∀ (v : Bool) (s : State), ∃ t, exec (.hostWriteResetReq v) s = .next t ∧
    t.phyRstN = !v ∧
    t = (if s.par.assertMode = .async ∧ v = true then
          { s with
            rstReq := v
            tx := { s.tx with sync := List.replicate s.tx.sync.length true }
            rx := { s.rx with sync := List.replicate s.rx.sync.length true } }
        else { s with rstReq := v })

/-- Rule R98, in both domains and both modes: ASYNC sets every stage, SHIFT shifts a 1 in. `dropLast` of `1 :: stages` is
`sync[0] <- 1`, `sync[i] <- sync[i-1]`. Where the row runs in ASYNC mode the stages are 1 already (the machine's invariant says
so), and the row changes nothing. -/
def Obligations.ReqHighResult : Prop :=
  (∀ d : ClockDomain, d.hasSync = true → decode (.rssel d) 1 = .ok (.rsReqHigh d)) ∧
  (∀ (s : State) (d : ClockDomain), s.Inv → s.par.assertMode = .async → s.rstReq = true → d.hasSync = true →
    exec (.rsReqHigh d) s = .next s) ∧
  ∀ s : State,
    exec (.rsReqHigh .tx) s = .next
      { s with
        tx :=
          { s.tx with
            sync :=
              if s.par.assertMode = .async then List.replicate s.tx.sync.length true
              else (true :: s.tx.sync).dropLast } } ∧
    exec (.rsReqHigh .rx) s = .next
      { s with
        rx :=
          { s.rx with
            sync :=
              if s.par.assertMode = .async then List.replicate s.rx.sync.length true
              else (true :: s.rx.sync).dropLast } }

/-- Rule R99, in both domains, "the same in both modes". -/
def Obligations.ReqLowResult : Prop :=
  (∀ d : ClockDomain, d.hasSync = true → decode (.rssel d) 0 = .ok (.rsReqLow d)) ∧
  ∀ s : State,
    exec (.rsReqLow .tx) s = .next { s with tx := { s.tx with sync := (false :: s.tx.sync).dropLast } } ∧
    exec (.rsReqLow .rx) s = .next { s with rx := { s.rx with sync := (false :: s.rx.sync).dropLast } }

/-- Rules R52 and R97: only tx and rx have a synchronizer, so a ResetSync row of the base domain, which is ill formed, has no
selector and stops by name: the model's choice (log entry 12). -/
def Obligations.BaseHasNoSynchronizer : Prop :=
  (∀ w : Nat, w < 2 → decode (.rssel .base) w = .error .noSynchronizer ∧ decode (.rstovr .base) w = .error .noSynchronizer) ∧
  ∀ s : State,
    exec (.rsReqHigh .base) s = .refused .noSynchronizer ∧ exec (.rsReqLow .base) s = .refused .noSynchronizer

/-- Rule R100, the override's own writes; `tx.data_q` takes a free value (log entry 5). -/
def Obligations.TxResetOverrideResult : Prop :=
  decode (.rstovr .tx) 1 = .ok .txResetOverride ∧ decode (.rstovr .tx) 0 = .error .noOverride ∧
  ∀ s : State, exec .txResetOverride s = .next
    { s with
      tx :=
        { s.tx with state := .idle, enQ := false, dataQ := Config.txDraw4 s.tx.draws, draws := s.tx.draws + 1 } }

/-- Rule R101, the override's own writes; the latches and the flag take free values (log entry 5). -/
def Obligations.RxResetOverrideResult : Prop :=
  decode (.rstovr .rx) 1 = .ok .rxResetOverride ∧ decode (.rstovr .rx) 0 = .error .noOverride ∧
  ∀ s : State, exec .rxResetOverride s = .next
    { s with
      rx :=
        { s.rx with
          state := .idle
          lo := Config.rxDraw4 s.rx.draws
          hi := Config.rxDraw4 (s.rx.draws + 1)
          sofPending := Config.rxDraw1 (s.rx.draws + 2)
          draws := s.rx.draws + 3 } }

/-! ## The step -/

/-- Rules R11, R52, R116: a step on a tx or rx line runs the operation its selector word decodes to, on the state with the
line's inputs latched, then the override if the domain's last stage was 1 at the start of the tick, then the ResetSync row for
the request sampled then; a base or host line runs its one operation; a lock-step line is a tx tick and then an rx tick. With
no line left nothing steps (log entry 2). -/
def Obligations.StepRunsDecodedOperation : Prop :=
  (∀ (s : State) (i : SinkIn) (ls : List Line) (op rs : Instr), s.stim = .tx i :: ls →
    decode .txsel (selTx s.tx.state i.valid i.sof i.eof).toNat = .ok op →
    decode (.rssel .tx) s.rstReq.toNat = .ok rs →
    step s =
      andThen (exec op { s with stim := ls, tx := { s.tx with inp := i } })
        (fun t => andThen (if s.resetTick .tx then exec .txResetOverride t else .next t) (exec rs))) ∧
  (∀ (s : State) (i : RxIn) (ls : List Line) (op rs : Instr), s.stim = .rx i :: ls →
    decode .rxsel (selRx s.rx.state i.dv).toNat = .ok op →
    decode (.rssel .rx) s.rstReq.toNat = .ok rs →
    step s =
      andThen (exec op { s with stim := ls, rx := { s.rx with inp := i } })
        (fun t => andThen (if s.resetTick .rx then exec .rxResetOverride t else .next t) (exec rs))) ∧
  (∀ (s : State) (ls : List Line), s.stim = .base :: ls → step s = exec .baseToggle { s with stim := ls }) ∧
  (∀ (s : State) (v : Bool) (ls : List Line), s.stim = .host v :: ls →
    step s = exec (.hostWriteResetReq v) { s with stim := ls }) ∧
  (∀ (s : State) (i : SinkIn) (r : RxFeed) (ls : List Line), s.stim = .both i r :: ls →
    step s =
      andThen (step { s with stim := .tx i :: ls })
        (fun t => step { t with stim := .rx (r.inputs s) :: ls })) ∧
  (∀ s : State, s.stim = [] → step s = .next s)

/-- Rules R106 and R119, which speak of the ticks of a running domain: every step answers a next state, from every state,
reachable or not. At an empty stimulus, where no domain ticks, the machine steps to itself: the model's choice (log entry 2). -/
def Obligations.StepAlwaysAnswersNext : Prop :=
  ∀ s : State, ∃ t, step s = .next t ∧ t.stim = s.stim.tail

/-- Rule R121's table of power-on values, where it gives one, for any parameters; and what State.reset is: the defaults of rule
R7. The values the table leaves open (rule R19, R22 to R24: any value) are not stated. That the chains start at 1 is decision D13
(log entry 16). -/
def Obligations.PowerOnValues : Prop :=
  (∀ p : Params,
    let s := State.powerOn p
    s.rstReq = p.rstReqInit ∧ s.base.refOut = p.refOutInit ∧
    s.tx.sync = List.replicate p.syncDepth true ∧ s.rx.sync = List.replicate p.syncDepth true ∧
    s.tx.state = .idle ∧ s.tx.enQ = false ∧ s.rx.state = .idle ∧ s.txEr = false ∧ s.NoRecord) ∧
  State.reset.par.syncDepth = 2 ∧ State.reset.par.assertMode = .async ∧ State.reset.rstReq = false

/-- The invariant of Safety.lean (rules R7, R16, R20, R37, R67, R83 to R89, R98) holds at power-on, for all legal parameters. With
RST_REQ_INIT 1 in ASYNC mode that rests on every chain powering on at 1, the spec's decision D13 and its general knowledge G2
(log entry 16). -/
def Obligations.PowerOnMeetsInvariant : Prop :=
  (∀ p : Params, p.Legal → (State.powerOn p).Inv) ∧ State.reset.Inv

/-- Every step keeps the invariant of Safety.lean, from every state that meets it; with no line left the step changes nothing (log
entry 2). -/
def Obligations.StepKeepsInvariant : Prop :=
  ∀ s : State, s.Inv → ∀ t, step s = .next t → t.Inv

/-- Rules R31, R92 and R116: each line answers a next state in which only the stepping agent's own state has changed. -/
def Obligations.AgentsWriteTheirOwnState : Prop :=
  ∀ (s : State) (ls : List Line),
    (∀ i, ∃ t, step { s with stim := .tx i :: ls } = .next t ∧ t = { s with stim := ls, tx := t.tx }) ∧
    (∀ i, ∃ t, step { s with stim := .rx i :: ls } = .next t ∧ t = { s with stim := ls, rx := t.rx }) ∧
    (∃ t, step { s with stim := .base :: ls } = .next t ∧ t = { s with stim := ls, base := t.base }) ∧
    (∀ v, ∃ t, step { s with stim := .host v :: ls } = .next t ∧
      t = { s with
            stim := ls
            rstReq := v
            tx := { s.tx with sync := t.tx.sync }
            rx := { s.rx with sync := t.rx.sync } })

/-- Rules R7, R14, R27 and R113: no step changes a parameter, only a host line changes the reset request, and a host read gives
the bit the latest host write stored (the read is the model's function of the state, log entry 15; with no line left the step
changes nothing, log entry 2). -/
def Obligations.OnlyHostWritesRequest : Prop :=
  (∀ s t : State, step s = .next t →
    t.par = s.par ∧
    ((∀ l ∈ s.stim.head?, l.isHost = false) →
      t.rstReq = s.rstReq ∧ t.hostRead s.par.rstReqAddr = s.hostRead s.par.rstReqAddr)) ∧
  (∀ (s : State) (v : Bool) (ls : List Line), s.stim = .host v :: ls →
    ∃ t, step s = .next t ∧ t.rstReq = v ∧ t.hostRead s.par.rstReqAddr = some v)

/-- Rules R25 and R110: the transmitter's state changes only in its own ticks, and there only to the next state its row names or,
in a reset tick, to IDLE; the receiver's likewise. -/
def Obligations.ControlStateMovesByRowOrReset : Prop :=
  ∀ (s : State) (l : Line) (ls : List Line), s.stim = l :: ls → ∃ t, step s = .next t ∧
    (l.ticks .tx = false → t.tx.state = s.tx.state) ∧ (l.ticks .rx = false → t.rx.state = s.rx.state) ∧
    (∀ i, (l = .tx i ∨ ∃ r, l = .both i r) →
      t.tx.state =
        if s.resetTick .tx then .idle
        else match s.tx.state with
          | .idle => if i.valid = true ∧ i.sof = true then .sendLow else .idle
          | .sendLow => .sendHigh
          | .sendHigh => if i.valid = true ∧ i.eof = true then .idle else .sendLow) ∧
    (∀ i, (l = .rx i ∨ ∃ j r, l = .both j r ∧ i = r.inputs s) →
      t.rx.state =
        if s.resetTick .rx then .idle
        else match s.rx.state with
          | .idle => if i.dv then .loadHigh else .idle
          | .loadHigh => .loadLow
          | .loadLow => if i.dv then .loadHigh else .idle)

/-! ## Channels -/

/-- Rule R36, on both channels and in every tick, reset ticks included: the tick's element joins the transferred ones exactly
when valid and ready are both 1, and nothing else does. -/
def Obligations.TransferExactlyOnHandshake : Prop :=
  (∀ (s : State) (i : SinkIn), ∃ t, runLines [.tx i] s = .next t ∧
    t.tx.taken = (if i.valid = true ∧ t.tx.out.ready = true then s.tx.taken ++ [⟨i.data, i.sof, i.eof⟩] else s.tx.taken) ∧
    t.rx.given = s.rx.given) ∧
  (∀ (s : State) (i : RxIn), ∃ t, runLines [.rx i] s = .next t ∧
    t.rx.given =
      (if t.rx.out.valid = true ∧ i.ready = true then s.rx.given ++ [⟨t.rx.out.data, t.rx.out.sof, t.rx.out.eof⟩]
      else s.rx.given) ∧
    t.tx.taken = s.tx.taken)

/-- Rule R37 on the upstream sink: over two successive tx ticks, from any state, `tx_unstable` is set by the second exactly when
the first offered an element, was not ready, was not a reset tick, and the second does not offer the same element. That a
second tick that is itself a reset tick is watched too is the model's reading (log entry 7). -/
def Obligations.ProducerDutyIsWatched : Prop :=
  ∀ (s : State) (i j : SinkIn), ∃ t u, runLines [.tx i] s = .next t ∧ runLines [.tx i, .tx j] s = .next u ∧
    u.tx.recUnstable =
      (t.tx.recUnstable ||
        (i.valid && !t.tx.out.ready && !s.resetTick .tx &&
          !(j.valid && j.data == i.data && j.sof == i.sof && j.eof == i.eof)))

/-- Rule R76: the readiness profile, in every tx tick of every state. -/
def Obligations.ReadinessProfile : Prop :=
  ∀ (s : State) (i : SinkIn), ∃ t, runLines [.tx i] s = .next t ∧
    (s.tx.state = .idle → t.tx.out.ready = !(i.valid && i.sof)) ∧
    (s.tx.state = .sendLow → t.tx.out.ready = false) ∧
    (s.tx.state = .sendHigh → t.tx.out.ready = true)

/-- Rules R67 and R78: the enable and nibble of one tx tick out of reset are on the pins during the next one, whatever that
next tick is; `tx_er` is 0 in both. -/
def Obligations.PinsShowPreviousTick : Prop :=
  ∀ (s : State) (i j : SinkIn), s.resetTick .tx = false →
    ∃ t u, runLines [.tx i] s = .next t ∧ runLines [.tx i, .tx j] s = .next u ∧
      t.tx.out.en = s.tx.enQ ∧ t.tx.out.data = s.tx.dataQ ∧ t.tx.out.er = false ∧ u.tx.out.er = false ∧
      u.tx.out.en = t.tx.enQ ∧ u.tx.out.data = t.tx.dataQ ∧
      (s.tx.state = .idle → u.tx.out.en = false) ∧
      (s.tx.state = .sendLow → u.tx.out.en = true ∧ u.tx.out.data = i.data.extractLsb' 0 4) ∧
      (s.tx.state = .sendHigh → u.tx.out.en = true ∧ u.tx.out.data = i.data.extractLsb' 4 4)

/-- Rule R75: outside the state that reads it, an input changes no register, no pin and no readiness: the two runs agree but for
the latched inputs, the transferred elements and the watch of R37. Both are taken with the same draws (log entry 5). -/
def Obligations.InputsReadPerState : Prop :=
  ∀ (s : State) (i j : SinkIn), i.valid = j.valid →
    (s.tx.state = .idle → i.sof = j.sof) →
    (s.tx.state = .sendHigh → i.eof = j.eof) →
    (s.tx.state = .sendLow → i.data.extractLsb' 0 4 = j.data.extractLsb' 0 4) →
    (s.tx.state = .sendHigh → i.data.extractLsb' 4 4 = j.data.extractLsb' 4 4) →
    ∃ t u, runLines [.tx i] s = .next t ∧ runLines [.tx j] s = .next u ∧
      t = { u with
            tx :=
              { u.tx with
                inp := t.tx.inp
                taken := t.tx.taken
                offer := t.tx.offer
                recUnstable := t.tx.recUnstable } }

/-! ## Frames through the transmitter -/

/-- Rule R79, for every frame of one or more bytes: enable and nibbles on the pins tick by tick, counted from the tick t0 (k = 0)
that sees the start, and the tick each element is transferred in; the two ticks after the frame have any inputs. -/
def Obligations.FrameOnPins : Prop :=
  ∀ (s : State) (bs : List Byte) (i j : SinkIn), s.Released .tx → s.tx.state = .idle → bs ≠ [] →
    ∀ k, k ≤ 2 * bs.length + 2 →
      ∃ t, runLines ((txframe bs ++ [Line.tx i, Line.tx j]).take (k + 1)) s = .next t ∧
        (1 ≤ k → t.tx.out.en = decide (2 ≤ k ∧ k ≤ 2 * bs.length + 1)) ∧
        (2 ≤ k → k ≤ 2 * bs.length + 1 → (nibblesOf bs)[k - 2]? = some t.tx.out.data) ∧
        (k ≤ 2 * bs.length → t.tx.taken = s.tx.taken ++ (frameOf bs).take (k / 2))

/-- Rules R45 and R77: frames sent one right after another are taken whole and in order, each frame of N bytes in 2N+1 ticks, and
from a producer that owes nothing no record is set. -/
def Obligations.FramesAreTakenInOrder : Prop :=
  ∀ (s : State) (fs : List (List Byte)), s.Released .tx → s.tx.state = .idle → s.tx.offer = none →
    (∀ bs ∈ fs, bs ≠ []) →
    ∃ t, runLines (fs.flatMap txframe) s = .next t ∧
      (fs.flatMap txframe).length = (fs.map (fun bs => 2 * bs.length + 1)).sum ∧
      t.tx.taken = s.tx.taken ++ fs.flatMap frameOf ∧ t.tx.state = .idle ∧
      t.tx.recDiscard = s.tx.recDiscard ∧ t.tx.recUnderrun = s.tx.recUnderrun ∧ t.tx.recUnstable = s.tx.recUnstable

/-- Rule R80: with no valid end-of-frame element in a SEND_HIGH tick, the transmitter alternates SEND_LOW and SEND_HIGH for ever
with enable on the pins. -/
def Obligations.OpenFrameNeverEnds : Prop :=
  ∀ (s : State) (x : Nat → SinkIn), s.Released .tx → s.tx.state = .sendLow →
    (∀ n, ¬((x (2 * n + 1)).valid = true ∧ (x (2 * n + 1)).eof = true)) →
    ∀ k, ∃ t, runLines ((List.range (k + 1)).map (fun n => Line.tx (x n))) s = .next t ∧
      t.tx.state = (if k % 2 = 0 then TxFsm.sendHigh else TxFsm.sendLow) ∧ t.tx.enQ = true ∧
      (1 ≤ k → t.tx.out.en = true)

/-! ## Frames through the receiver -/

/-- Rule R88's first part, for any pins and any consumer: with rx in IDLE and out of reset in tick 0, element m is presented in
tick 2+2m with the two nibbles of ticks 2m+1 and 2m, sof on the first, eof as `rx_dv` is there; the tick before presents
nothing; and a last element leaves the receiver in IDLE. -/
def Obligations.ReceiverPresentsPairs : Prop :=
  ∀ (s : State) (x : Nat → RxIn) (m : Nat), s.Released .rx → s.rx.state = .idle → (x 0).dv = true →
    (∀ k, k < m → (x (2 * k + 2)).dv = true) →
    ∃ t u, runLines ((List.range (2 * m + 2)).map (fun n => Line.rx (x n))) s = .next t ∧
      runLines ((List.range (2 * m + 3)).map (fun n => Line.rx (x n))) s = .next u ∧
      t.rx.out.valid = false ∧ t.rx.state = .loadLow ∧
      u.rx.out.valid = true ∧ u.rx.out.data = (x (2 * m + 1)).data ++ (x (2 * m)).data ∧
      u.rx.out.sof = decide (m = 0) ∧ u.rx.out.eof = !(x (2 * m + 2)).dv ∧
      u.rx.state = (if (x (2 * m + 2)).dv then RxFsm.loadHigh else RxFsm.idle)

/-- Rules R88 and R91 on an odd run: after 2m+1 valid nibbles and one tick without, the byte is completed with what that tick
carried, `rx_partial` is set, and the frame ends only if the following tick is without too: a one-tick gap is not seen. -/
def Obligations.OddRunCompletesTheByte : Prop :=
  ∀ (s : State) (x : Nat → RxIn) (m : Nat), s.Released .rx → s.rx.state = .idle →
    (∀ k, k ≤ 2 * m → (x k).dv = true) → (x (2 * m + 1)).dv = false →
    ∃ t, runLines ((List.range (2 * m + 3)).map (fun n => Line.rx (x n))) s = .next t ∧
      t.rx.recPartial = true ∧ t.rx.out.valid = true ∧
      t.rx.out.data = (x (2 * m + 1)).data ++ (x (2 * m)).data ∧
      (t.rx.out.eof = true ↔ (x (2 * m + 2)).dv = false) ∧
      (t.rx.state = .idle ↔ (x (2 * m + 2)).dv = false)

/-- Rules R38 and R89: out of reset, with a ready consumer and whatever the pins and the other agents do, what the receiver
transfers is a sequence of well-formed frames, the last one open exactly while the receiver is inside it. -/
def Obligations.ReceivedFramesAreWellFormed : Prop :=
  ∀ (s : State) (ls : List Line), s.Released .rx → s.rx.state = .idle → HostQuiet ls →
    (∀ l ∈ ls, l.consumerReady = true) →
    ∃ t xs, runLines ls s = .next t ∧ t.rx.given = s.rx.given ++ xs ∧
      frameScan false xs = some (decide (t.rx.state ≠ .idle) && !t.rx.sofPending)

/-- Rule R87: an element presented to a consumer that is not ready is lost, the record is set, and the next tick presents
nothing, so it is never presented again. -/
def Obligations.OverrunLosesTheElement : Prop :=
  ∀ (s : State) (i j : RxIn), s.resetTick .rx = false → s.rx.state = .loadLow → i.ready = false →
    ∃ t u, runLines [.rx i] s = .next t ∧ runLines [.rx i, .rx j] s = .next u ∧
      t.rx.out.valid = true ∧ t.rx.given = s.rx.given ∧ t.rx.recOverrun = true ∧
      u.rx.out.valid = false ∧ u.rx.given = s.rx.given

/-- Rules R81 and R87 (D6): over any run of rx ticks the consumer's readiness changes only which elements are transferred and the
overrun record, never a register or an output. Both runs are taken with the same draws (log entry 5). -/
def Obligations.ConsumerReadinessIsNotRead : Prop :=
  ∀ (s : State) (xs : List (RxIn × Bool)),
    ∃ t u, runLines (xs.map (fun p => Line.rx p.1)) s = .next t ∧
      runLines (xs.map (fun p => Line.rx { p.1 with ready := p.2 })) s = .next u ∧
      t = { u with
            rx := { u.rx with inp := t.rx.inp, given := t.rx.given, recOverrun := t.rx.recOverrun } }

/-- The loopback properties of 95_test_vectors.md L1-1 to L1-4 (rules R39, R79, R88; D23): frames sent back to back through the
transmitter into the receiver, in lock-step, come out of the source exactly as they went into the sink, within two ticks of
the last, and with no record set. -/
def Obligations.LoopbackReproducesFrames : Prop :=
  ∀ (s : State) (fs : List (List Byte)), s.Released .tx → s.Released .rx →
    s.tx.state = .idle → s.tx.enQ = false → s.tx.offer = none → s.rx.state = .idle → s.NoRecord →
    (∀ bs ∈ fs, bs ≠ []) →
    ∃ t, runLines (loopback (fs.flatMap frameInputs ++ [({} : SinkIn), ({} : SinkIn)])) s = .next t ∧
      t.tx.taken = s.tx.taken ++ fs.flatMap frameOf ∧ t.rx.given = s.rx.given ++ fs.flatMap frameOf ∧
      t.tx.state = .idle ∧ t.rx.state = .idle ∧ t.tx.enQ = false ∧ t.NoRecord

/-! ## Clocks and reset -/

/-- Rule R94: over base ticks the reference output changes level at every one, so its period is two ticks; its phase at power-on
is REF_OUT_INIT, whatever that parameter is. -/
def Obligations.ReferenceAtHalfRate : Prop :=
  (∀ (s : State) (n : Nat), ∃ t, runLines (List.replicate (n + 1) Line.base) s = .next t ∧
    t.base.clkOut = (s.base.refOut ^^ decide (n % 2 = 1)) ∧ t.base.refOut = (s.base.refOut ^^ decide (n % 2 = 0))) ∧
  ∀ p : Params, (State.powerOn p).refClkOut = p.refOutInit

/-- Rules R93, R118 and R102: a run that holds no tick of a domain leaves that domain as it is, but for the ASYNC preset of its
chain by a host write of 1. -/
def Obligations.StoppedClockKeepsItsDomain : Prop :=
  ∀ (s : State) (ls : List Line), ∃ t, runLines ls s = .next t ∧
    (ticksOf .base ls = 0 → t.base = s.base) ∧
    (ticksOf .tx ls = 0 → t.tx = { s.tx with sync := t.tx.sync } ∧
      (s.par.assertMode = .shift ∨ Line.host true ∉ ls → t.tx.sync = s.tx.sync)) ∧
    (ticksOf .rx ls = 0 → t.rx = { s.rx with sync := t.rx.sync } ∧
      (s.par.assertMode = .shift ∨ Line.host true ∉ ls → t.rx.sync = s.rx.sync))

/-- Rules R46 and R109: steps of two different agents can be taken in either order, with the same outcome; only a host write does
not commute with a tick of tx or rx (rule R105). The outcomes are equal whole, drawn values among them, because each domain
draws with a counter of its own and both runs are taken with the same draws: the model's choice (log entry 5). -/
def Obligations.DomainsAreIndependent : Prop :=
  ∀ (s : State) (i : SinkIn) (x : RxIn) (v : Bool),
    runLines [.tx i, .rx x] s = runLines [.rx x, .tx i] s ∧
    runLines [.tx i, .base] s = runLines [.base, .tx i] s ∧
    runLines [.rx x, .base] s = runLines [.base, .rx x] s ∧
    runLines [.host v, .base] s = runLines [.base, .host v] s ∧
    runLines [.both i (.pins x)] s = runLines [.tx i, .rx x] s

/-- Rules R100, R101, R104 and R110: a reset tick leaves the FSM in IDLE with tx enable off, sets no record of a row, and drives
readiness and validity as the row of the current state does. -/
def Obligations.ResetTickForcesIdle : Prop :=
  (∀ (s : State) (i : SinkIn), s.resetTick .tx = true → ∃ t, runLines [.tx i] s = .next t ∧
    t.tx.state = .idle ∧ t.tx.enQ = false ∧ t.tx.out.rst = true ∧
    t.tx.recDiscard = s.tx.recDiscard ∧ t.tx.recUnderrun = s.tx.recUnderrun ∧
    t.tx.out.en = s.tx.enQ ∧ t.tx.out.data = s.tx.dataQ ∧
    t.tx.out.ready = decide (s.tx.state = .sendHigh ∨ s.tx.state = .idle ∧ ¬(i.valid = true ∧ i.sof = true))) ∧
  (∀ (s : State) (i : RxIn), s.resetTick .rx = true → ∃ t, runLines [.rx i] s = .next t ∧
    t.rx.state = .idle ∧ t.rx.out.rst = true ∧
    t.rx.recOverrun = s.rx.recOverrun ∧ t.rx.recPartial = s.rx.recPartial ∧
    t.rx.out.valid = decide (s.rx.state = .loadLow) ∧ t.rx.out.data = s.rx.hi ++ s.rx.lo)

/-- Rule R120: power-on with any legal SYNC_DEPTH and mode, and any interleaving of the agents in which the host does not write.
If RST_REQ_INIT is 0 exactly the first N ticks of tx and of rx are reset ticks; if it is 1 every tick is; the base domain
toggles from its first tick. That a chain powers on at 1 is the spec's decision D13 (log entry 16). -/
def Obligations.PowerOnResetTicks : Prop :=
  ∀ (p : Params) (ls : List Line), p.Legal → HostQuiet ls →
    ∃ t, runLines ls (State.powerOn p) = .next t ∧
      (0 < ticksOf .tx ls → t.tx.out.rst = (p.rstReqInit || decide (ticksOf .tx ls ≤ p.syncDepth))) ∧
      (0 < ticksOf .rx ls → t.rx.out.rst = (p.rstReqInit || decide (ticksOf .rx ls ≤ p.syncDepth))) ∧
      t.base.refOut = (p.refOutInit ^^ decide (ticksOf .base ls % 2 = 1))

/-- Rule R103, ASYNC: from any state with chains of N stages, after a host write of 1 every tick of tx and rx is a reset tick
that leaves its FSM in IDLE, and after the following write of 0 exactly the first N are, in any interleaving, even if no tick
fell between the two writes. -/
def Obligations.AsyncResetLatency : Prop :=
  ∀ (s : State) (ls ms : List Line), s.Inv → s.par.assertMode = .async → HostQuiet ls → HostQuiet ms →
    ∃ t u, runLines (.host true :: ls) s = .next t ∧ runLines (.host true :: ls ++ .host false :: ms) s = .next u ∧
      (0 < ticksOf .tx ls → t.tx.out.rst = true ∧ t.tx.state = .idle) ∧
      (0 < ticksOf .rx ls → t.rx.out.rst = true ∧ t.rx.state = .idle) ∧
      (0 < ticksOf .tx ms → u.tx.out.rst = decide (ticksOf .tx ms ≤ s.par.syncDepth)) ∧
      (0 < ticksOf .rx ms → u.rx.out.rst = decide (ticksOf .rx ms ≤ s.par.syncDepth))

/-- Rule R103, SHIFT: from a released domain, reset ticks begin N ticks after the first tick that samples 1; from a held one they
end N ticks after the first tick that samples 0; a pulse that no tick of the domain samples has no effect on it. Stated of
tx and rx alike. -/
def Obligations.ShiftResetLatency : Prop :=
  ∀ (s : State) (ls : List Line), s.Inv → s.par.assertMode = .shift → HostQuiet ls →
    ∃ t u v, runLines (.host true :: ls) s = .next t ∧ runLines (.host false :: ls) s = .next u ∧
      runLines (.host true :: ls ++ [.host false]) s = .next v ∧
      (s.Released .tx → 0 < ticksOf .tx ls → t.tx.out.rst = decide (s.par.syncDepth < ticksOf .tx ls)) ∧
      (s.Released .rx → 0 < ticksOf .rx ls → t.rx.out.rst = decide (s.par.syncDepth < ticksOf .rx ls)) ∧
      (s.Held .tx → 0 < ticksOf .tx ls → u.tx.out.rst = decide (ticksOf .tx ls ≤ s.par.syncDepth)) ∧
      (s.Held .rx → 0 < ticksOf .rx ls → u.rx.out.rst = decide (ticksOf .rx ls ≤ s.par.syncDepth)) ∧
      (ticksOf .tx ls = 0 → v.tx = s.tx) ∧ (ticksOf .rx ls = 0 → v.rx = s.rx)

/-- Rule R104, in both modes: while the request is held every tick is a reset tick, the FSM stays in IDLE, nothing is enabled on
the pins from the second tick on, and nothing is presented from the second tick on. -/
def Obligations.HeldResetStaysInIdle : Prop :=
  ∀ (s : State) (ls : List Line), s.Inv → HostQuiet ls → ∃ t, runLines ls s = .next t ∧
    (s.Held .tx → 0 < ticksOf .tx ls → t.Held .tx ∧ t.tx.out.rst = true ∧ t.tx.state = .idle ∧ t.tx.enQ = false ∧
      (2 ≤ ticksOf .tx ls → t.tx.out.en = false)) ∧
    (s.Held .rx → 0 < ticksOf .rx ls → t.Held .rx ∧ t.rx.out.rst = true ∧ t.rx.state = .idle ∧
      (2 ≤ ticksOf .rx ls → t.rx.out.valid = false))

/-! ## Records -/

/-- Rule R34: "No step ever clears them"; with no line left the step changes nothing (log entry 2). -/
def Obligations.RecordsAreNeverCleared : Prop :=
  ∀ s t : State, step s = .next t →
    (s.tx.recDiscard = true → t.tx.recDiscard = true) ∧ (s.tx.recUnderrun = true → t.tx.recUnderrun = true) ∧
    (s.tx.recUnstable = true → t.tx.recUnstable = true) ∧ (s.rx.recOverrun = true → t.rx.recOverrun = true) ∧
    (s.rx.recPartial = true → t.rx.recPartial = true)

/-- Rule R34: "A model with these records has the same runs as a model without them." Both runs are taken with the same draws (log
entry 5). -/
def Obligations.RecordsDoNotInfluenceRuns : Prop :=
  ∀ (s : State) (ls : List Line), ∃ t u,
    runLines ls s = .next t ∧ runLines ls s.eraseRecords = .next u ∧ u.eraseRecords = t.eraseRecords
end

