-- ==== Sys2Proof/Laws/State.lean ====
section
/-!
SUPPORT. One lemma per field per update of the state, true by unfolding, so that no later proof unfolds a record update.
-/

namespace Sys2Proof.Machine

variable (s : State)

@[simp] theorem setRstReq_par (v : Bool) : (s.setRstReq v).par = s.par := rfl
@[simp] theorem setRstReq_rstReq (v : Bool) : (s.setRstReq v).rstReq = v := rfl
@[simp] theorem setRstReq_base (v : Bool) : (s.setRstReq v).base = s.base := rfl
@[simp] theorem setRstReq_tx (v : Bool) : (s.setRstReq v).tx = s.tx := rfl
@[simp] theorem setRstReq_rx (v : Bool) : (s.setRstReq v).rx = s.rx := rfl
@[simp] theorem setRstReq_stim (v : Bool) : (s.setRstReq v).stim = s.stim := rfl

@[simp] theorem setBase_par (b : BaseDomain) : (s.setBase b).par = s.par := rfl
@[simp] theorem setBase_rstReq (b : BaseDomain) : (s.setBase b).rstReq = s.rstReq := rfl
@[simp] theorem setBase_base (b : BaseDomain) : (s.setBase b).base = b := rfl
@[simp] theorem setBase_tx (b : BaseDomain) : (s.setBase b).tx = s.tx := rfl
@[simp] theorem setBase_rx (b : BaseDomain) : (s.setBase b).rx = s.rx := rfl
@[simp] theorem setBase_stim (b : BaseDomain) : (s.setBase b).stim = s.stim := rfl

@[simp] theorem setTx_par (t : TxDomain) : (s.setTx t).par = s.par := rfl
@[simp] theorem setTx_rstReq (t : TxDomain) : (s.setTx t).rstReq = s.rstReq := rfl
@[simp] theorem setTx_base (t : TxDomain) : (s.setTx t).base = s.base := rfl
@[simp] theorem setTx_tx (t : TxDomain) : (s.setTx t).tx = t := rfl
@[simp] theorem setTx_rx (t : TxDomain) : (s.setTx t).rx = s.rx := rfl
@[simp] theorem setTx_stim (t : TxDomain) : (s.setTx t).stim = s.stim := rfl

@[simp] theorem setRx_par (r : RxDomain) : (s.setRx r).par = s.par := rfl
@[simp] theorem setRx_rstReq (r : RxDomain) : (s.setRx r).rstReq = s.rstReq := rfl
@[simp] theorem setRx_base (r : RxDomain) : (s.setRx r).base = s.base := rfl
@[simp] theorem setRx_tx (r : RxDomain) : (s.setRx r).tx = s.tx := rfl
@[simp] theorem setRx_rx (r : RxDomain) : (s.setRx r).rx = r := rfl
@[simp] theorem setRx_stim (r : RxDomain) : (s.setRx r).stim = s.stim := rfl

@[simp] theorem setStim_par (ls : List Line) : (s.setStim ls).par = s.par := rfl
@[simp] theorem setStim_rstReq (ls : List Line) : (s.setStim ls).rstReq = s.rstReq := rfl
@[simp] theorem setStim_base (ls : List Line) : (s.setStim ls).base = s.base := rfl
@[simp] theorem setStim_tx (ls : List Line) : (s.setStim ls).tx = s.tx := rfl
@[simp] theorem setStim_rx (ls : List Line) : (s.setStim ls).rx = s.rx := rfl
@[simp] theorem setStim_stim (ls : List Line) : (s.setStim ls).stim = ls := rfl

@[simp] theorem setRstReq_self : s.setRstReq s.rstReq = s := rfl
@[simp] theorem setRstReq_setRstReq (v : Bool) (v' : Bool) : (s.setRstReq v).setRstReq v' = s.setRstReq v' := rfl
@[simp] theorem setBase_self : s.setBase s.base = s := rfl
@[simp] theorem setBase_setBase (b : BaseDomain) (b' : BaseDomain) : (s.setBase b).setBase b' = s.setBase b' := rfl
@[simp] theorem setTx_self : s.setTx s.tx = s := rfl
@[simp] theorem setTx_setTx (t : TxDomain) (t' : TxDomain) : (s.setTx t).setTx t' = s.setTx t' := rfl
@[simp] theorem setRx_self : s.setRx s.rx = s := rfl
@[simp] theorem setRx_setRx (r : RxDomain) (r' : RxDomain) : (s.setRx r).setRx r' = s.setRx r' := rfl
@[simp] theorem setStim_self : s.setStim s.stim = s := rfl
@[simp] theorem setStim_setStim (ls : List Line) (ls' : List Line) : (s.setStim ls).setStim ls' = s.setStim ls' := rfl

@[simp] theorem stages_base : s.stages .base = [] := rfl
@[simp] theorem stages_tx : s.stages .tx = s.tx.sync := rfl
@[simp] theorem stages_rx : s.stages .rx = s.rx.sync := rfl
@[simp] theorem setStages_base (l : List Bool) : s.setStages .base l = s := rfl
@[simp] theorem setStages_tx (l : List Bool) : s.setStages .tx l = s.setTx { s.tx with sync := l } := rfl
@[simp] theorem setStages_rx (l : List Bool) : s.setStages .rx l = s.setRx { s.rx with sync := l } := rfl
@[simp] theorem withSink_eq (i : SinkIn) : s.withSink i = s.setTx { s.tx with inp := i } := rfl
@[simp] theorem withPins_eq (i : RxIn) : s.withPins i = s.setRx { s.rx with inp := i } := rfl

theorem resetTick_tx : s.resetTick .tx = lastStage s.tx.sync := rfl
theorem resetTick_rx : s.resetTick .rx = lastStage s.rx.sync := rfl

/-- Updates of different parts commute; the order tx, rx, base, rst_req, stim is the normal form. -/
theorem setRx_setTx (r : RxDomain) (t : TxDomain) : (s.setRx r).setTx t = (s.setTx t).setRx r := rfl
theorem setBase_setTx (b : BaseDomain) (t : TxDomain) : (s.setBase b).setTx t = (s.setTx t).setBase b := rfl
theorem setBase_setRx (b : BaseDomain) (r : RxDomain) : (s.setBase b).setRx r = (s.setRx r).setBase b := rfl
theorem setRstReq_setTx (v : Bool) (t : TxDomain) : (s.setRstReq v).setTx t = (s.setTx t).setRstReq v := rfl
theorem setRstReq_setRx (v : Bool) (r : RxDomain) : (s.setRstReq v).setRx r = (s.setRx r).setRstReq v := rfl
theorem setStim_setTx (ls : List Line) (t : TxDomain) : (s.setStim ls).setTx t = (s.setTx t).setStim ls := rfl
theorem setStim_setRx (ls : List Line) (r : RxDomain) : (s.setStim ls).setRx r = (s.setRx r).setStim ls := rfl

end Sys2Proof.Machine
end

