-- ==== Sys2Proof/Laws/Ops.lean ====
section
/-!
SUPPORT. What each shared operation can do, once: the chain operations, the two halves of a tx tick and of an rx tick, the
forced transfers, and `andThen`.
-/

namespace Sys2Proof.Machine

/-! `andThen` -/

@[simp] theorem andThen_next {σ τ : Type} (s : σ) (k : σ → Result τ) : andThen (.next s) k = k s := rfl

/-- If a composition answers a next state, both parts did. -/
theorem andThen_eq_next {σ τ : Type} {r : Result σ} {k : σ → Result τ} {t : τ} (h : andThen r k = .next t) :
    ∃ s, r = .next s ∧ k s = .next t := by
  cases r with
  | next s => exact ⟨s, rfl, h⟩
  | fault e => cases h
  | refused e => cases h

/-! Synchronizer chains -/

@[simp] theorem shiftIn_length (b : Bool) (l : List Bool) : (shiftIn b l).length = l.length := by
  simp [shiftIn]

@[simp] theorem presetAll_length (l : List Bool) : (presetAll l).length = l.length := by
  simp [presetAll]

@[simp] theorem assertStages_length (m : AssertMode) (l : List Bool) : (assertStages m l).length = l.length := by
  cases m <;> simp [assertStages]

theorem mem_presetAll {l : List Bool} {b : Bool} (h : b ∈ presetAll l) : b = true :=
  List.eq_of_mem_replicate h

theorem mem_shiftIn {b c : Bool} {l : List Bool} (h : c ∈ shiftIn b l) : c = b ∨ c ∈ l := by
  simpa using List.mem_of_mem_dropLast h

/-- A chain of which every stage is `b` is `replicate`. -/
theorem stages_eq_replicate {l : List Bool} {b : Bool} (h : ∀ c ∈ l, c = b) : l = List.replicate l.length b :=
  List.eq_replicate_iff.2 ⟨rfl, h⟩

@[simp] theorem shiftIn_replicate (b : Bool) (n : Nat) : shiftIn b (List.replicate n b) = List.replicate n b := by
  rw [shiftIn, ← List.replicate_succ, List.dropLast_replicate, Nat.add_sub_cancel]

@[simp] theorem presetAll_replicate (b : Bool) (n : Nat) : presetAll (List.replicate n b) = List.replicate n true := by
  simp [presetAll]

@[simp] theorem assertStages_replicate_true (m : AssertMode) (n : Nat) :
    assertStages m (List.replicate n true) = List.replicate n true := by
  cases m <;> simp [assertStages]

/-- Shifting `b` into a chain that starts with `k` stages `b` followed by stages `c` makes it one more. -/
theorem shiftIn_replicate_append (b c : Bool) (k n : Nat) :
    shiftIn b (List.replicate k b ++ List.replicate (n + 1) c) = List.replicate (k + 1) b ++ List.replicate n c := by
  rw [shiftIn, ← List.cons_append, ← List.replicate_succ, List.dropLast_append_of_ne_nil (by simp),
    List.dropLast_replicate, Nat.add_sub_cancel]

@[simp] theorem lastStage_nil : lastStage [] = false := rfl

@[simp] theorem lastStage_replicate_succ (n : Nat) (b : Bool) : lastStage (List.replicate (n + 1) b) = b := by
  simp [lastStage, List.getLast?_replicate]

@[simp] theorem lastStage_replicate_false (n : Nat) : lastStage (List.replicate n false) = false := by
  cases n <;> simp

@[simp] theorem lastStage_append_replicate_succ (l : List Bool) (n : Nat) (b : Bool) :
    lastStage (l ++ List.replicate (n + 1) b) = b := by
  simp [lastStage, List.getLast?_append, List.getLast?_replicate]

theorem lastStage_of_all_false {l : List Bool} (h : ∀ b ∈ l, b = false) : lastStage l = false := by
  rw [stages_eq_replicate h]; simp

/-! Flags -/

@[simp] theorem handshake_eq (v r : Bool) : handshake v r = (v && r) := rfl
@[simp] theorem record_eq (o c : Bool) : record o c = (o || c) := rfl
@[simp] theorem transfer_true (x : Element) (l : List Element) : transfer true x l = l ++ [x] := rfl
@[simp] theorem transfer_false (x : Element) (l : List Element) : transfer false x l = l := rfl
@[simp] theorem breaksDuty_none (v : Bool) (x : Element) : breaksDuty none v x = false := rfl
@[simp] theorem breaksDuty_some (y x : Element) (v : Bool) : breaksDuty (some y) v x = !(v && x == y) := rfl

/-- Two elements are the same exactly when data and both flags are (rule R35). -/
theorem element_beq (x y : Element) : (x == y) = (x.data == y.data && x.sof == y.sof && x.eof == y.eof) := by
  obtain ⟨d, f, e⟩ := x
  obtain ⟨d', f', e'⟩ := y
  rw [Bool.eq_iff_iff, beq_iff_eq, Element.mk.injEq]
  simp [and_assoc]

/-- An element is owed exactly after a tick outside reset that offered it and did not take it (rule R37). -/
theorem duty_eq_some {rst v r : Bool} {x y : Element} :
    duty rst v r x = some y ↔ v = true ∧ r = false ∧ rst = false ∧ x = y := by
  cases rst <;> cases v <;> cases r <;> simp [duty]

/-! The halves of a tx tick (rules R37, R67, R100) -/

variable (t : TxDomain) (r : RxDomain)

@[simp] theorem drive_tx_sync (w : TxRow) : (t.drive w).sync = t.sync := rfl
@[simp] theorem watch_tx_sync (w : TxRow) : (t.watch w).sync = t.sync := rfl
@[simp] theorem element_tx (w : TxRow) : t.element w = ⟨t.inp.data, w.sof, w.eof⟩ := rfl

theorem load_tx_of_reset {w : TxRow} (h : lastStage t.sync = true) : t.load w = t := by
  simp [TxDomain.load, h]

theorem load_tx_of_normal {w : TxRow} (h : lastStage t.sync = false) :
    t.load w =
      { t with
        state := w.next
        enQ := w.en
        dataQ := w.nib.getD (Config.txDraw4 t.draws)
        draws := if w.nib.isNone then t.draws + 1 else t.draws
        recDiscard := t.recDiscard || w.discard
        recUnderrun := t.recUnderrun || w.underrun } := by
  simp [TxDomain.load, h]

@[simp] theorem load_tx_sync (w : TxRow) : (t.load w).sync = t.sync := by
  unfold TxDomain.load; split <;> rfl

/-! The halves of an rx tick (rules R81, R101) -/

@[simp] theorem drive_rx_sync (w : RxRow) : (r.drive w).sync = r.sync := rfl
@[simp] theorem element_rx (w : RxRow) : r.element w = ⟨r.hi ++ r.lo, r.sofPending, w.eof⟩ := rfl
@[simp] theorem sourceData_eq : r.sourceData = r.hi ++ r.lo := rfl

theorem load_rx_of_reset {w : RxRow} (h : lastStage r.sync = true) : r.load w = r := by
  simp [RxDomain.load, h]

theorem load_rx_of_normal {w : RxRow} (h : lastStage r.sync = false) :
    r.load w =
      { r with
        state := w.next
        lo := w.lo
        hi := w.hi
        sofPending := w.sofPending
        recOverrun := r.recOverrun || (w.valid && !r.inp.ready)
        recPartial := r.recPartial || w.short } := by
  simp [RxDomain.load, h]

@[simp] theorem load_rx_sync (w : RxRow) : (r.load w).sync = r.sync := by
  unfold RxDomain.load; split <;> rfl

@[simp] theorem forceIdle_tx_sync : t.forceIdle.sync = t.sync := rfl
@[simp] theorem forceIdle_rx_sync : r.forceIdle.sync = r.sync := rfl

end Sys2Proof.Machine
end

