-- ==== Sys2Proof/Laws/PerInstr.lean ====
section
/-!
SUPPORT. The per-instruction family SelectorFits: the selector word the encoder writes for an operation fits the width rule
R52 gives its format.
-/

namespace Sys2Proof.Laws.SelectorFits

/-- The encoder's word has no bit above its format's width (rules R52, R64). -/
def Statement (i : Instr) : Prop := (encode i).word < 2 ^ (encode i).fmt.width

theorem txIdleWait (f e : Bool) : Statement (.txIdleWait f e) := BitVec.isLt _
theorem txIdleDiscard (e : Bool) : Statement (.txIdleDiscard e) := BitVec.isLt _
theorem txIdleStart (e : Bool) : Statement (.txIdleStart e) := BitVec.isLt _
theorem txSendLow (v f e : Bool) : Statement (.txSendLow v f e) := BitVec.isLt _
theorem txSendHighLast (f : Bool) : Statement (.txSendHighLast f) := BitVec.isLt _
theorem txSendHighNext (f : Bool) : Statement (.txSendHighNext f) := BitVec.isLt _
theorem txSendHighUnderrun (f e : Bool) : Statement (.txSendHighUnderrun f e) := BitVec.isLt _
theorem rxIdleWait : Statement .rxIdleWait := BitVec.isLt _
theorem rxIdleCapture : Statement .rxIdleCapture := BitVec.isLt _
theorem rxLoadHigh (d : Bool) : Statement (.rxLoadHigh d) := BitVec.isLt _
theorem rxLoadLowNext : Statement .rxLoadLowNext := BitVec.isLt _
theorem rxLoadLowLast : Statement .rxLoadLowLast := BitVec.isLt _
theorem baseToggle : Statement .baseToggle := Nat.one_pos
theorem hostWriteResetReq (v : Bool) : Statement (.hostWriteResetReq v) := Bool.toNat_lt v
theorem rsReqHigh (d : ClockDomain) : Statement (.rsReqHigh d) := Nat.one_lt_two
theorem rsReqLow (d : ClockDomain) : Statement (.rsReqLow d) := Nat.two_pos
theorem txResetOverride : Statement .txResetOverride := Nat.one_lt_two
theorem rxResetOverride : Statement .rxResetOverride := Nat.one_lt_two

end Sys2Proof.Laws.SelectorFits
end

