-- ==== Sys2Proof/Laws/Tick.lean ====
section
/-!
SUPPORT. One tick, one line, one run, in closed form: which operation a selector selects, what a whole tick of a domain does to
that domain alone, and a run of lines as a fold. Every statement about `step` goes through these.
-/

namespace Sys2Proof.Machine

/-! Selecting a row (rules R55, R56, R60) -/

/-- The operation of a tx tick, by the cases of rule R60. -/
def txOp (q : TxFsm) (i : SinkIn) : Instr :=
  match q with
  | .idle =>
    if i.valid then (if i.sof then .txIdleStart i.eof else .txIdleDiscard i.eof) else .txIdleWait i.sof i.eof
  | .sendLow => .txSendLow i.valid i.sof i.eof
  | .sendHigh =>
    if i.valid then (if i.eof then .txSendHighLast i.sof else .txSendHighNext i.sof)
    else .txSendHighUnderrun i.sof i.eof

/-- The operation of an rx tick, by the cases of rule R60. -/
def rxOp (q : RxFsm) (d : Bool) : Instr :=
  match q with
  | .idle => if d then .rxIdleCapture else .rxIdleWait
  | .loadHigh => .rxLoadHigh d
  | .loadLow => if d then .rxLoadLowNext else .rxLoadLowLast

theorem decode_selTx (q : TxFsm) (v f e : Bool) (d : Byte) :
    decode .txsel (selTx q v f e).toNat = .ok (txOp q ⟨v, d, f, e⟩) := by
  cases q <;> cases v <;> cases f <;> cases e <;> rfl

theorem decode_selRx (q : RxFsm) (d : Bool) : decode .rxsel (selRx q d).toNat = .ok (rxOp q d) := by
  cases q <;> cases d <;> rfl

theorem runRow_txSel (s t : State) (i : SinkIn) : runRow (s.txSel i) t = exec (txOp s.tx.state i) t := by
  simp [runRow, State.txSel, decode_selTx s.tx.state i.valid i.sof i.eof i.data]

theorem runRow_rxSel (s t : State) (i : RxIn) : runRow (s.rxSel i) t = exec (rxOp s.rx.state i.dv) t := by
  simp [runRow, State.rxSel, decode_selRx]

/-- The ResetSync row a domain with a synchronizer runs for the sampled request (rules R57, R98, R99). -/
theorem runRow_rssel (d : ClockDomain) (hd : d.hasSync = true) (req : Bool) (s : State) :
    runRow ⟨.rssel d, req.toNat⟩ s =
      .next (s.setStages d (if req then assertStages s.par.assertMode (s.stages d) else shiftIn false (s.stages d))) := by
  cases d
  · cases hd
  · cases req <;> rfl
  · cases req <;> rfl

theorem runOverride_tx (rst : Bool) (s : State) :
    runOverride .tx rst s = .next (if rst then s.setTx s.tx.forceIdle else s) := by
  cases rst <;> rfl

theorem runOverride_rx (rst : Bool) (s : State) :
    runOverride .rx rst s = .next (if rst then s.setRx s.rx.forceIdle else s) := by
  cases rst <;> rfl

/-! Whole ticks -/

/-- The row of a tx tick (rules R68 to R74): readiness as rule R76 says it. -/
def txRow (q : TxFsm) (i : SinkIn) : TxRow :=
  match q with
  | .idle =>
    { valid := i.valid, sof := i.sof, eof := i.eof, ready := !(i.valid && i.sof), en := false, nib := none,
      next := if i.valid && i.sof then .sendLow else .idle, discard := i.valid && !i.sof, underrun := false }
  | .sendLow =>
    { valid := i.valid, sof := i.sof, eof := i.eof, ready := false, en := true, nib := some (lowNibble i.data),
      next := .sendHigh, discard := false, underrun := !i.valid }
  | .sendHigh =>
    { valid := i.valid, sof := i.sof, eof := i.eof, ready := true, en := true, nib := some (highNibble i.data),
      next := if i.valid && i.eof then .idle else .sendLow, discard := false, underrun := !i.valid }

/-- The row of an rx tick (rules R82 to R86). -/
def rxRow (r : RxDomain) (i : RxIn) : RxRow :=
  match r.state with
  | .idle =>
    { valid := false, eof := false, next := if i.dv then .loadHigh else .idle,
      lo := if i.dv then i.data else r.lo, hi := r.hi, sofPending := true, short := false }
  | .loadHigh =>
    { valid := false, eof := false, next := .loadLow, lo := r.lo, hi := i.data, sofPending := r.sofPending,
      short := !i.dv }
  | .loadLow =>
    { valid := true, eof := !i.dv, next := if i.dv then .loadHigh else .idle,
      lo := if i.dv then i.data else r.lo, hi := r.hi, sofPending := false, short := false }

/-- The chain after a tick that sampled `req` (rules R98, R99). -/
def nextStages (m : AssertMode) (req : Bool) (l : List Bool) : List Bool :=
  if req then assertStages m l else shiftIn false l

/-- The tx domain after one tx tick. -/
def txStep (m : AssertMode) (req : Bool) (i : SinkIn) (t : TxDomain) : TxDomain :=
  let w := txRow t.state i
  let u := ({ t with inp := i }.drive w).watch w
  { (if lastStage t.sync then u.forceIdle else u.load w) with sync := nextStages m req t.sync }

/-- The rx domain after one rx tick. -/
def rxStep (m : AssertMode) (req : Bool) (i : RxIn) (r : RxDomain) : RxDomain :=
  let w := rxRow r i
  let u := { r with inp := i }.drive w
  { (if lastStage r.sync then u.forceIdle else u.load w) with sync := nextStages m req r.sync }

theorem exec_txOp (i : SinkIn) (s : State) :
    exec (txOp s.tx.state i) (s.withSink i) = .next ((s.withSink i).txTick (txRow s.tx.state i)) := by
  obtain ⟨v, d, f, e⟩ := i
  cases h : s.tx.state <;> cases v <;> cases f <;> cases e <;> rfl

theorem exec_rxOp (i : RxIn) (s : State) :
    exec (rxOp s.rx.state i.dv) (s.withPins i) = .next ((s.withPins i).rxTick (rxRow s.rx i)) := by
  obtain ⟨d, x, r⟩ := i
  cases h : s.rx.state <;> cases d <;>
    simp [rxOp, exec, rxRow, h, execRxIdleWait, execRxIdleCapture, execRxLoadHigh, execRxLoadLowNext, execRxLoadLowLast]

/-- A tx tick always answers a next state, and touches the tx domain alone (rules R116, R119). -/
theorem tickTx_eq (i : SinkIn) (s : State) :
    tickTx i s = .next (s.setTx (txStep s.par.assertMode s.rstReq i s.tx)) := by
  rw [tickTx, runRow_txSel, exec_txOp, andThen_next, finishTick, runOverride_tx, andThen_next, runRow_rssel _ rfl]
  by_cases h : lastStage s.tx.sync = true
  · simp [State.txTick, txStep, nextStages, resetTick_tx, h, load_tx_of_reset]
  · simp [State.txTick, txStep, nextStages, resetTick_tx, h]

/-- An rx tick always answers a next state, and touches the rx domain alone (rules R116, R119). -/
theorem tickRx_eq (i : RxIn) (s : State) :
    tickRx i s = .next (s.setRx (rxStep s.par.assertMode s.rstReq i s.rx)) := by
  rw [tickRx, runRow_rxSel, exec_rxOp, andThen_next, finishTick, runOverride_rx, andThen_next, runRow_rssel _ rfl]
  by_cases h : lastStage s.rx.sync = true
  · simp [State.rxTick, rxStep, nextStages, resetTick_rx, h, load_rx_of_reset]
  · simp [State.rxTick, rxStep, nextStages, resetTick_rx, h]

/-- The state after a host write (rule R95). -/
def hostStep (v : Bool) (s : State) : State :=
  if s.par.assertMode = .async ∧ v = true then
    ((s.setRstReq v).setTx { s.tx with sync := presetAll s.tx.sync }).setRx { s.rx with sync := presetAll s.rx.sync }
  else s.setRstReq v

/-- The state after one line. -/
def lineStep (l : Line) (s : State) : State :=
  match l with
  | .tx i => s.setTx (txStep s.par.assertMode s.rstReq i s.tx)
  | .rx i => s.setRx (rxStep s.par.assertMode s.rstReq i s.rx)
  | .base => s.setBase { refOut := !s.base.refOut, clkOut := s.base.refOut }
  | .host v => hostStep v s
  | .both i r =>
    (s.setTx (txStep s.par.assertMode s.rstReq i s.tx)).setRx
      (rxStep s.par.assertMode s.rstReq (r.inputs s) s.rx)

theorem runRow_base (s : State) : runRow ⟨.base, 0⟩ s = execBaseToggle s := rfl

theorem runRow_host (v : Bool) (s : State) : runRow ⟨.hostw, v.toNat⟩ s = .next (hostStep v s) := by
  have h : runRow ⟨.hostw, v.toNat⟩ s = execHostWriteResetReq v s := by cases v <;> rfl
  rw [h, execHostWriteResetReq, hostStep]
  split <;> rfl

/-- A line always answers a next state: "every tick of a running domain has a row" (rule R119). -/
theorem runLine_eq (l : Line) (s : State) : runLine l s = .next (lineStep l s) := by
  cases l with
  | tx i => exact tickTx_eq i s
  | rx i => exact tickRx_eq i s
  | base => rfl
  | host v => exact runRow_host v s
  | both i r => rw [runLine, tickTx_eq, andThen_next, tickRx_eq]; rfl

theorem step_cons (l : Line) (ls : List Line) (s : State) : step (s.setStim (l :: ls)) = .next (lineStep l (s.setStim ls)) :=
  runLine_eq l _

/-- A line reads and writes no stimulus. -/
theorem lineStep_setStim (l : Line) (s : State) (ls : List Line) : lineStep l (s.setStim ls) = (lineStep l s).setStim ls := by
  cases l with
  | host v => by_cases h : s.par.assertMode = .async ∧ v = true <;> simp only [lineStep, hostStep, setStim_par, h] <;> rfl
  | both i r => cases r <;> rfl
  | _ => rfl

theorem step_of_stim {s : State} {l : Line} {ls : List Line} (h : s.stim = l :: ls) :
    step s = .next (lineStep l (s.setStim ls)) := by
  have := step_cons l ls s
  rwa [← h, setStim_self] at this

theorem step_of_nil {s : State} (h : s.stim = []) : step s = .next s := by
  simp only [step, advance, h]

/-- A run whose first step answers a next state goes on from there. -/
theorem run_of_next {M : Host.Core} {k : Nat} {s t : M.State} (h : M.step s = .next t) : M.run (k + 1) s = M.run k t := by
  simp only [Host.Core.run, h]

/-- A run of lines is the fold of their effects, with nothing left to run. -/
theorem runLines_eq (ls : List Line) (s : State) :
    runLines ls s = .next ((ls.foldl (fun s l => lineStep l s) s).setStim []) := by
  induction ls generalizing s with
  | nil => rfl
  | cons l ls ih =>
    have h : Sys2Proof.core.step (s.setStim (l :: ls)) = .next ((lineStep l s).setStim ls) := by
      rw [← lineStep_setStim]; exact step_cons l ls s
    have run_succ : runLines (l :: ls) s = runLines ls (lineStep l s) := run_of_next h
    rw [run_succ, ih]; rfl

theorem runLines_one (l : Line) (s : State) : runLines [l] s = .next ((lineStep l s).setStim []) := runLines_eq _ _

theorem runLines_two (l m : Line) (s : State) :
    runLines [l, m] s = .next ((lineStep m (lineStep l s)).setStim []) := runLines_eq _ _

/-! What a line leaves alone -/

theorem lineStep_stim (l : Line) (s : State) : (lineStep l s).stim = s.stim := by
  cases l with
  | host v => simp only [lineStep, hostStep]; split <;> rfl
  | _ => rfl

theorem lineStep_par (l : Line) (s : State) : (lineStep l s).par = s.par := by
  cases l with
  | host v => simp only [lineStep, hostStep]; split <;> rfl
  | _ => rfl

theorem lineStep_rstReq {l : Line} (h : l.isHost = false) (s : State) : (lineStep l s).rstReq = s.rstReq := by
  cases l with
  | host v => cases h
  | _ => rfl

/-! What a tick does to a domain, field by field -/

section
variable (m : AssertMode) (req : Bool) (i : SinkIn) (x : RxIn) (t : TxDomain) (r : RxDomain)

@[simp] theorem nextStages_length (l : List Bool) : (nextStages m req l).length = l.length := by
  unfold nextStages; split <;> simp

@[simp] theorem txStep_sync : (txStep m req i t).sync = nextStages m req t.sync := rfl
@[simp] theorem rxStep_sync : (rxStep m req x r).sync = nextStages m req r.sync := rfl

/-- A reset tick of tx (rule R100). -/
theorem txStep_of_reset (h : lastStage t.sync = true) :
    txStep m req i t =
      { (({ t with inp := i }.drive (txRow t.state i)).watch (txRow t.state i)).forceIdle with
        sync := nextStages m req t.sync } := by
  simp [txStep, h]

/-- A normal tick of tx (rules R68 to R74). -/
theorem txStep_of_normal (h : lastStage t.sync = false) :
    txStep m req i t =
      { (({ t with inp := i }.drive (txRow t.state i)).watch (txRow t.state i)).load (txRow t.state i) with
        sync := nextStages m req t.sync } := by
  simp [txStep, h]

/-- A reset tick of rx (rule R101). -/
theorem rxStep_of_reset (h : lastStage r.sync = true) :
    rxStep m req x r =
      { ({ r with inp := x }.drive (rxRow r x)).forceIdle with sync := nextStages m req r.sync } := by
  simp [rxStep, h]

/-- A normal tick of rx (rules R82 to R86). -/
theorem rxStep_of_normal (h : lastStage r.sync = false) :
    rxStep m req x r =
      { ({ r with inp := x }.drive (rxRow r x)).load (rxRow r x) with sync := nextStages m req r.sync } := by
  simp [rxStep, h]

/-- The outputs of a tx tick, reset tick or not (rules R67, R76, R100). -/
theorem txStep_out :
    (txStep m req i t).out =
      { ready := (txRow t.state i).ready, en := t.enQ, data := t.dataQ, er := false, rst := lastStage t.sync } := by
  simp only [txStep, TxDomain.load, TxDomain.forceIdle]; split <;> (try split) <;> rfl

/-- The record of R37 after a tx tick, reset tick or not. -/
theorem txStep_recUnstable :
    (txStep m req i t).recUnstable = (t.recUnstable || breaksDuty t.offer i.valid ⟨i.data, i.sof, i.eof⟩) := by
  cases hl : lastStage t.sync <;> cases hq : t.state <;>
    simp [txStep, TxDomain.load, TxDomain.watch, TxDomain.drive, hl, hq, txRow, TxDomain.forceIdle]

/-- What a tx tick leaves owed (rule R37). -/
theorem txStep_offer :
    (txStep m req i t).offer =
      duty (lastStage t.sync) i.valid (txRow t.state i).ready ⟨i.data, i.sof, i.eof⟩ := by
  cases hl : lastStage t.sync <;> cases hq : t.state <;>
    simp [txStep, TxDomain.load, TxDomain.watch, TxDomain.drive, hl, hq, txRow, TxDomain.forceIdle]

/-- The outputs of an rx tick while it presents an element (rules R81, R85, R86). -/
theorem rxStep_out_valid : (rxStep m req x r).out.valid = (rxRow r x).valid := by
  simp only [rxStep, RxDomain.load, RxDomain.forceIdle]; split <;> (try split) <;> rfl

theorem rxStep_out_rst : (rxStep m req x r).out.rst = lastStage r.sync := by
  simp only [rxStep, RxDomain.load, RxDomain.forceIdle]; split <;> (try split) <;> rfl

/-- While no request stands and no 1 is left in the chain, it stays so (rule R103). -/
theorem nextStages_released {l : List Bool} (h : ∀ b ∈ l, b = false) : nextStages m false l = l := by
  rw [stages_eq_replicate h]; simp [nextStages]

/-- While the request stands and every stage is 1, it stays so (rule R104). -/
theorem nextStages_held {l : List Bool} (h : ∀ b ∈ l, b = true) : nextStages m true l = l := by
  rw [stages_eq_replicate h]; simp [nextStages]

end

/-! Runs of one domain's ticks -/

/-- Running tx lines is folding the tx tick over the tx domain. -/
theorem foldl_tx (is : List SinkIn) (s : State) :
    (is.map Line.tx).foldl (fun s l => lineStep l s) s =
      s.setTx (is.foldl (fun t i => txStep s.par.assertMode s.rstReq i t) s.tx) := by
  induction is generalizing s with
  | nil => rfl
  | cons i is ih => rw [List.map_cons, List.foldl_cons, ih]; rfl

/-- Running rx lines is folding the rx tick over the rx domain. -/
theorem foldl_rx (xs : List RxIn) (s : State) :
    (xs.map Line.rx).foldl (fun s l => lineStep l s) s =
      s.setRx (xs.foldl (fun r x => rxStep s.par.assertMode s.rstReq x r) s.rx) := by
  induction xs generalizing s with
  | nil => rfl
  | cons x xs ih => rw [List.map_cons, List.foldl_cons, ih]; rfl

end Sys2Proof.Machine
end

