-- ==== Sys2Proof/Laws/Runs.lean ====
section
/-!
SUPPORT. Runs without a host write: what they leave alone, the chains as iterated shifts (rules R97 to R99, R103), the reset flag
of a domain's latest tick, and the closed form of a tick of a released domain.
-/

namespace Sys2Proof.Machine

/-- The state after a run of lines, the stimulus left as it was. -/
def afterLines (ls : List Line) (s : State) : State := ls.foldl (fun s l => lineStep l s) s

theorem runLines_after (ls : List Line) (s : State) : runLines ls s = .next ((afterLines ls s).setStim []) :=
  runLines_eq ls s

@[simp] theorem afterLines_nil (s : State) : afterLines [] s = s := rfl

theorem afterLines_cons (l : Line) (ls : List Line) (s : State) :
    afterLines (l :: ls) s = afterLines ls (lineStep l s) := rfl

theorem afterLines_append (ls ms : List Line) (s : State) :
    afterLines (ls ++ ms) s = afterLines ms (afterLines ls s) := List.foldl_append

/-- A run that starts with a quiet line is quiet after it. -/
theorem hostQuiet_tail {l : Line} {ls : List Line} (h : HostQuiet (l :: ls)) : HostQuiet ls :=
  fun a ha => h a (List.mem_cons_of_mem l ha)

theorem hostQuiet_head {l : Line} {ls : List Line} (h : HostQuiet (l :: ls)) : l.isHost = false :=
  h l List.mem_cons_self

theorem ticksOf_cons (d : ClockDomain) (l : Line) (ls : List Line) :
    ticksOf d (l :: ls) = ticksOf d ls + if l.ticks d then 1 else 0 := by
  simp [ticksOf, List.countP_cons]

theorem afterLines_par (ls : List Line) (s : State) : (afterLines ls s).par = s.par := by
  induction ls generalizing s with
  | nil => rfl
  | cons l ls ih => exact (ih _).trans (lineStep_par l s)

theorem afterLines_rstReq (ls : List Line) (s : State) (h : HostQuiet ls) : (afterLines ls s).rstReq = s.rstReq := by
  induction ls generalizing s with
  | nil => rfl
  | cons l ls ih => exact (ih _ (hostQuiet_tail h)).trans (lineStep_rstReq (hostQuiet_head h) s)

/-- A line without a host write either leaves the tx domain alone or is a tx tick. -/
theorem lineStep_tx (l : Line) (s : State) (h : l.isHost = false) :
    (lineStep l s).tx = s.tx ∧ l.ticks .tx = false ∨
      (∃ i, (lineStep l s).tx = txStep s.par.assertMode s.rstReq i s.tx) ∧ l.ticks .tx = true := by
  cases l with
  | tx i => exact .inr ⟨⟨i, rfl⟩, rfl⟩
  | both i r => exact .inr ⟨⟨i, rfl⟩, rfl⟩
  | host v => cases h
  | _ => exact .inl ⟨rfl, rfl⟩

/-- A line without a host write either leaves the rx domain alone or is an rx tick. -/
theorem lineStep_rx (l : Line) (s : State) (h : l.isHost = false) :
    (lineStep l s).rx = s.rx ∧ l.ticks .rx = false ∨
      (∃ i, (lineStep l s).rx = rxStep s.par.assertMode s.rstReq i s.rx) ∧ l.ticks .rx = true := by
  cases l with
  | rx i => exact .inr ⟨⟨i, rfl⟩, rfl⟩
  | both i r => exact .inr ⟨⟨_, rfl⟩, rfl⟩
  | host v => cases h
  | _ => exact .inl ⟨rfl, rfl⟩

/-- A quiet run without a tx tick leaves the tx domain alone (rule R118). -/
theorem afterLines_tx_of_no_tick (ls : List Line) (s : State) (h : HostQuiet ls) (hn : ticksOf .tx ls = 0) :
    (afterLines ls s).tx = s.tx := by
  induction ls generalizing s with
  | nil => rfl
  | cons l ls ih =>
    rw [ticksOf_cons] at hn
    rcases lineStep_tx l s (hostQuiet_head h) with ⟨a, b⟩ | ⟨-, b⟩
    · exact (ih _ (hostQuiet_tail h) (by omega)).trans a
    · simp [b] at hn

/-- A quiet run without an rx tick leaves the rx domain alone (rule R118). -/
theorem afterLines_rx_of_no_tick (ls : List Line) (s : State) (h : HostQuiet ls) (hn : ticksOf .rx ls = 0) :
    (afterLines ls s).rx = s.rx := by
  induction ls generalizing s with
  | nil => rfl
  | cons l ls ih =>
    rw [ticksOf_cons] at hn
    rcases lineStep_rx l s (hostQuiet_head h) with ⟨a, b⟩ | ⟨-, b⟩
    · exact (ih _ (hostQuiet_tail h) (by omega)).trans a
    · simp [b] at hn

/-- Over a quiet run the tx chain takes one ResetSync row per tx tick, and the latest tick's `rst_tx` is the last stage as that
tick found it (rule R97). -/
theorem afterLines_tx_sync (ls : List Line) (s : State) (h : HostQuiet ls) :
    (afterLines ls s).tx.sync = (nextStages s.par.assertMode s.rstReq)^[ticksOf .tx ls] s.tx.sync ∧
    (0 < ticksOf .tx ls → (afterLines ls s).tx.out.rst =
      lastStage ((nextStages s.par.assertMode s.rstReq)^[ticksOf .tx ls - 1] s.tx.sync)) := by
  induction ls generalizing s with
  | nil => exact ⟨rfl, fun h => absurd h (by simp [ticksOf])⟩
  | cons l ls ih =>
    have hl := hostQuiet_head h
    obtain ⟨i1, i2⟩ := ih (lineStep l s) (hostQuiet_tail h)
    rw [lineStep_par, lineStep_rstReq hl] at i1 i2
    rw [ticksOf_cons]
    rcases lineStep_tx l s hl with ⟨a, b⟩ | ⟨⟨i, a⟩, b⟩
    · rw [a] at i1 i2; simp only [b]; exact ⟨i1, i2⟩
    · rw [a, txStep_sync] at i1 i2
      simp only [b, if_true, Nat.add_sub_cancel]
      refine ⟨i1, fun _ => ?_⟩
      rcases Nat.eq_zero_or_pos (ticksOf .tx ls) with hz | hz
      · rw [afterLines_cons, afterLines_tx_of_no_tick ls _ (hostQuiet_tail h) hz, a, txStep_out, hz]; rfl
      · obtain ⟨n, hn⟩ : ∃ n, ticksOf .tx ls = n + 1 := ⟨ticksOf .tx ls - 1, by omega⟩
        refine (i2 hz).trans ?_
        rw [hn]; rfl

/-- Over a quiet run the rx chain takes one ResetSync row per rx tick, and the latest tick's `rst_rx` is the last stage as that
tick found it (rule R97). -/
theorem afterLines_rx_sync (ls : List Line) (s : State) (h : HostQuiet ls) :
    (afterLines ls s).rx.sync = (nextStages s.par.assertMode s.rstReq)^[ticksOf .rx ls] s.rx.sync ∧
    (0 < ticksOf .rx ls → (afterLines ls s).rx.out.rst =
      lastStage ((nextStages s.par.assertMode s.rstReq)^[ticksOf .rx ls - 1] s.rx.sync)) := by
  induction ls generalizing s with
  | nil => exact ⟨rfl, fun h => absurd h (by simp [ticksOf])⟩
  | cons l ls ih =>
    have hl := hostQuiet_head h
    obtain ⟨i1, i2⟩ := ih (lineStep l s) (hostQuiet_tail h)
    rw [lineStep_par, lineStep_rstReq hl] at i1 i2
    rw [ticksOf_cons]
    rcases lineStep_rx l s hl with ⟨a, b⟩ | ⟨⟨i, a⟩, b⟩
    · rw [a] at i1 i2; simp only [b]; exact ⟨i1, i2⟩
    · rw [a, rxStep_sync] at i1 i2
      simp only [b, if_true, Nat.add_sub_cancel]
      refine ⟨i1, fun _ => ?_⟩
      rcases Nat.eq_zero_or_pos (ticksOf .rx ls) with hz | hz
      · rw [afterLines_cons, afterLines_rx_of_no_tick ls _ (hostQuiet_tail h) hz, a, rxStep_out_rst, hz]; rfl
      · obtain ⟨n, hn⟩ : ∃ n, ticksOf .rx ls = n + 1 := ⟨ticksOf .rx ls - 1, by omega⟩
        refine (i2 hz).trans ?_
        rw [hn]; rfl

/-! Chains of N stages under k equal samples (rules R98, R99, R103) -/

theorem nextStages_low (m : AssertMode) : nextStages m false = shiftIn false := rfl

/-- k samples of `b` into N stages `c`: the first k stages are `b`, all of them from k = N on. -/
theorem shiftIn_iterate (b c : Bool) (N k : Nat) :
    (shiftIn b)^[k] (List.replicate N c) =
      if k < N then List.replicate k b ++ List.replicate (N - k) c else List.replicate N b := by
  induction k with
  | zero => cases N <;> simp
  | succ k ih =>
    rw [Function.iterate_succ_apply', ih]
    by_cases h : k < N
    · obtain ⟨n, hn⟩ : ∃ n, N - k = n + 1 := ⟨N - k - 1, by omega⟩
      rw [if_pos h, hn, shiftIn_replicate_append]
      by_cases h2 : k + 1 < N
      · rw [if_pos h2, show N - (k + 1) = n by omega]
      · rw [if_neg h2, show n = 0 by omega, show N = k + 1 by omega]; simp
    · rw [if_neg h, if_neg (by omega), shiftIn_replicate]

/-- The last stage of N sees a change of the sample after N ticks (rule R103). -/
theorem lastStage_shiftIn_iterate (b c : Bool) (N k : Nat) (hN : 0 < N) :
    lastStage ((shiftIn b)^[k] (List.replicate N c)) = if k < N then c else b := by
  rw [shiftIn_iterate]
  by_cases h : k < N
  · obtain ⟨n, hn⟩ : ∃ n, N - k = n + 1 := ⟨N - k - 1, by omega⟩
    rw [if_pos h, if_pos h, hn, lastStage_append_replicate_succ]
  · obtain ⟨n, rfl⟩ : ∃ n, N = n + 1 := ⟨N - 1, by omega⟩
    rw [if_neg h, if_neg h, lastStage_replicate_succ]

/-- A held chain stays held (rule R104). -/
theorem nextStages_iterate_held (m : AssertMode) (N k : Nat) :
    (nextStages m true)^[k] (List.replicate N true) = List.replicate N true := by
  induction k with
  | zero => rfl
  | succ k ih => rw [Function.iterate_succ_apply', ih]; simp [nextStages]

/-! Ticks of a released domain (rule R103) -/

/-- A tx tick of a domain with no 1 in its chain and no request: the row's own effect (rule R67). -/
theorem txStep_released (m : AssertMode) {t : TxDomain} (h : ∀ b ∈ t.sync, b = false) (i : SinkIn) :
    txStep m false i t = (({ t with inp := i }.drive (txRow t.state i)).watch (txRow t.state i)).load (txRow t.state i) := by
  rw [txStep_of_normal _ _ _ _ (lastStage_of_all_false h), nextStages_released m h]
  simp [TxDomain.load, lastStage_of_all_false h, TxDomain.watch, TxDomain.drive]

/-- An rx tick of a domain with no 1 in its chain and no request: the row's own effect (rule R81). -/
theorem rxStep_released (m : AssertMode) {r : RxDomain} (h : ∀ b ∈ r.sync, b = false) (x : RxIn) :
    rxStep m false x r = ({ r with inp := x }.drive (rxRow r x)).load (rxRow r x) := by
  rw [rxStep_of_normal _ _ _ _ (lastStage_of_all_false h), nextStages_released m h]
  simp [RxDomain.load, lastStage_of_all_false h, RxDomain.drive]

/-! The pseudo-lines -/

theorem frameTail_length (bs : List Byte) : (frameTail bs).length = 2 * bs.length := by
  induction bs with
  | nil => rfl
  | cons b bs ih => simp only [frameTail, List.length_cons, ih]; omega

/-- A frame of N bytes takes 2N + 1 tx lines (rules R65, R77). -/
theorem frameInputs_length {bs : List Byte} (h : bs ≠ []) : (frameInputs bs).length = 2 * bs.length + 1 := by
  cases bs with
  | nil => exact absurd rfl h
  | cons b bs => simp only [frameInputs, List.length_cons, frameTail_length]; omega

end Sys2Proof.Machine
end

