-- ==== Sys2Proof/Tests/Slice0.lean ====
section
/-!
SUPPORT. Tests, with every expected value from the spec: words written out bit by bit from the "encoding" column of rule R59, and
single ticks from the vectors of 95_test_vectors.md, whose ids they name. Then, for each statement with hypotheses, a concrete
state and operands that meet them. No test compares a free value.
-/

namespace Sys2Proof.Tests

open Sys2Proof
open Sys2Proof.Machine

/-! ## WellFormed: one ill-formed term for each check -/

theorem test_wellFormed_refuses_base_synchronizer :
    (Instr.rsReqHigh .base).wellFormed = false ∧ (Instr.rsReqLow .base).wellFormed = false := by decide

theorem test_wellFormed_accepts_every_synchronizer :
    (Instr.rsReqHigh .tx).wellFormed = true ∧ (Instr.rsReqLow .rx).wellFormed = true := by decide

/-! ## Decoding, bit by bit (rule R59) -/

/-- Rows `000fe`, `0010e`, `0011e`. -/
theorem test_decode_tx_idle :
    decode .txsel 0b00010 = .ok (.txIdleWait true false) ∧ decode .txsel 0b00001 = .ok (.txIdleWait false true) ∧
    decode .txsel 0b00101 = .ok (.txIdleDiscard true) ∧ decode .txsel 0b00100 = .ok (.txIdleDiscard false) ∧
    decode .txsel 0b00111 = .ok (.txIdleStart true) ∧ decode .txsel 0b00110 = .ok (.txIdleStart false) := by decide

/-- Row `01vfe`, one operand bit at a time. -/
theorem test_decode_tx_sendLow :
    decode .txsel 0b01100 = .ok (.txSendLow true false false) ∧ decode .txsel 0b01010 = .ok (.txSendLow false true false) ∧
    decode .txsel 0b01001 = .ok (.txSendLow false false true) := by decide

/-- Rows `101f1`, `101f0`, `100fe`. -/
theorem test_decode_tx_sendHigh :
    decode .txsel 0b10111 = .ok (.txSendHighLast true) ∧ decode .txsel 0b10101 = .ok (.txSendHighLast false) ∧
    decode .txsel 0b10110 = .ok (.txSendHighNext true) ∧ decode .txsel 0b10100 = .ok (.txSendHighNext false) ∧
    decode .txsel 0b10010 = .ok (.txSendHighUnderrun true false) ∧
    decode .txsel 0b10001 = .ok (.txSendHighUnderrun false true) := by decide

/-- Rows `000`, `001`, `01d`, `101`, `100`. -/
theorem test_decode_rx :
    decode .rxsel 0b000 = .ok .rxIdleWait ∧ decode .rxsel 0b001 = .ok .rxIdleCapture ∧
    decode .rxsel 0b011 = .ok (.rxLoadHigh true) ∧ decode .rxsel 0b010 = .ok (.rxLoadHigh false) ∧
    decode .rxsel 0b101 = .ok .rxLoadLowNext ∧ decode .rxsel 0b100 = .ok .rxLoadLowLast := by decide

/-- RSSEL `1` and `0`, RSTOVR `1`, HOSTW `v`, BASE. -/
theorem test_decode_other :
    decode (.rssel .tx) 0b1 = .ok (.rsReqHigh .tx) ∧ decode (.rssel .rx) 0b0 = .ok (.rsReqLow .rx) ∧
    decode (.rstovr .tx) 0b1 = .ok .txResetOverride ∧ decode (.rstovr .rx) 0b1 = .ok .rxResetOverride ∧
    decode .hostw 0b1 = .ok (.hostWriteResetReq true) ∧ decode .hostw 0b0 = .ok (.hostWriteResetReq false) ∧
    decode .base 0 = .ok .baseToggle := by decide

/-- Rules R58, R61, R64: what selects nothing. -/
theorem test_decode_rejects :
    decode .txsel 0b11000 = .error .reservedState ∧ decode .txsel 0b11111 = .error .reservedState ∧
    decode .rxsel 0b110 = .error .reservedState ∧ decode .rxsel 0b111 = .error .reservedState ∧
    decode (.rstovr .tx) 0b0 = .error .noOverride ∧ decode .txsel 0b100000 = .error .wordTooWide ∧
    decode (.rssel .base) 0b1 = .error .noSynchronizer ∧ decode .base 1 = .error .wordTooWide := by decide

/-- The words of TX-5, TX-15, RX-9 and RX-6 (rule R66). -/
theorem test_stimulus_words :
    sinkOfWord 0x6A5 = { valid := true, sof := true, eof := false, data := 0xA5 } ∧
    sinkOfWord 0x190 = { valid := false, sof := false, eof := true, data := 0x90 } ∧
    rxOfWord 0x10 = { ready := false, dv := true, data := 0x0 } ∧
    Element.word ⟨0xA5, true, false⟩ = 0x2A5 := by decide

/-! ## Single steps (95_test_vectors.md, L2) -/

/-- A field of the next state, none if there is no next state. -/
def look {α : Type} (r : Result State) (f : State → α) : Option α :=
  match r with
  | .next s => some (f s)
  | .fault _ => none
  | .refused _ => none

/-- Out of reset: power-on with the chains `[0,0]`. -/
def released : State := (State.reset.setStages .tx [false, false]).setStages .rx [false, false]

/-- The same in SHIFT mode. -/
def shiftReleased : State := { released with par := { released.par with assertMode := .shift } }

/-- One tx tick of word `w` from FSM state `q`: `sink_ready`, elements transferred, `en_q'`, next state, `tx_discard`,
`tx_underrun`. -/
def txVector (q : TxFsm) (w : BitVec 11) : Option (Bool × List (BitVec 10) × Bool × TxFsm × Bool × Bool) :=
  look (step (({ released with tx := { released.tx with state := q } } : State).push (.tx (sinkOfWord w))))
    (fun s => (s.tx.out.ready, s.tx.taken.map Element.word, s.tx.enQ, s.tx.state, s.tx.recDiscard, s.tx.recUnderrun))

/-- `data_q'` of the same tick. -/
def txNibble (q : TxFsm) (w : BitVec 11) : Option Nibble :=
  look (step (({ released with tx := { released.tx with state := q } } : State).push (.tx (sinkOfWord w)))) (·.tx.dataQ)

/-- What a vector of an rx tick shows: `source_valid`, elements transferred, next state, hi, lo, sof_pending, and the records
`rx_overrun`, `rx_partial`. -/
structure RxSeen where
  valid : Bool
  given : List (BitVec 10)
  next : RxFsm
  hi : Nibble
  lo : Nibble
  sp : Bool
  overrun : Bool
  short : Bool
deriving DecidableEq

/-- One rx tick of word `w` from a state and latches. -/
def rxVector (q : RxFsm) (hi lo : Nibble) (sp : Bool) (w : BitVec 6) : Option RxSeen :=
  look
    (step
      (({ released with rx := { released.rx with state := q, hi := hi, lo := lo, sofPending := sp } } : State).push
        (.rx (rxOfWord w))))
    (fun s => ⟨s.rx.out.valid, s.rx.given.map Element.word, s.rx.state, s.rx.hi, s.rx.lo, s.rx.sofPending,
      s.rx.recOverrun, s.rx.recPartial⟩)

/-- TX-1. -/
theorem test_tx1_idleWait : txVector .idle 0x000 = some (true, [], false, .idle, false, false) := by decide
/-- TX-2: flags without valid are ignored. -/
theorem test_tx2_idleWait_flags : txVector .idle 0x3FF = some (true, [], false, .idle, false, false) := by decide
/-- TX-3. -/
theorem test_tx3_discard : txVector .idle 0x433 = some (true, [0x033], false, .idle, true, false) := by decide
/-- TX-4: an eof-only element is dropped too. -/
theorem test_tx4_discard_eof : txVector .idle 0x544 = some (true, [0x144], false, .idle, true, false) := by decide
/-- TX-5: readiness goes low in the very tick. -/
theorem test_tx5_start : txVector .idle 0x6A5 = some (false, [], false, .sendLow, false, false) := by decide
/-- TX-7: the low nibble, nothing transferred. -/
theorem test_tx7_sendLow :
    txVector .sendLow 0x6A5 = some (false, [], true, .sendHigh, false, false) ∧ txNibble .sendLow 0x6A5 = some 0x5 := by
  decide
/-- TX-8: a bubble still emits a nibble. -/
theorem test_tx8_sendLow_underrun :
    txVector .sendLow 0x05A = some (false, [], true, .sendHigh, false, true) ∧ txNibble .sendLow 0x05A = some 0xA := by
  decide
/-- TX-10. -/
theorem test_tx10_last :
    txVector .sendHigh 0x7A5 = some (true, [0x3A5], true, .idle, false, false) ∧ txNibble .sendHigh 0x7A5 = some 0xA := by
  decide
/-- TX-13: sof inside a frame is ignored. -/
theorem test_tx13_next_sof :
    txVector .sendHigh 0x67E = some (true, [0x27E], true, .sendLow, false, false) ∧ txNibble .sendHigh 0x67E = some 0x7 := by
  decide
/-- TX-15: eof without valid does not close the frame. -/
theorem test_tx15_underrun_eof :
    txVector .sendHigh 0x190 = some (true, [], true, .sendLow, false, true) ∧ txNibble .sendHigh 0x190 = some 0x9 := by
  decide

/-- TX-17: the pins of a tick are the registers it found. -/
theorem test_tx17_pins :
    look (step (({ released with tx := { released.tx with enQ := true, dataQ := 0xC } } : State).push (.tx {})))
      (fun s => (s.tx.out.en, s.tx.out.data)) = some (true, 0xC) := by decide

/-- TX-19: SEND_LOW saw 0xA5, SEND_HIGH sees 0xB6 with eof: `tx_unstable`, and the later element moves. -/
theorem test_tx19_unstable :
    look
      (step
        (({ released with
            tx := { released.tx with state := .sendHigh, offer := some ⟨0xA5, false, false⟩ } } : State).push
          (.tx (sinkOfWord 0x5B6))))
      (fun s => (s.tx.recUnstable, s.tx.taken.map Element.word, s.tx.dataQ)) = some (true, [0x1B6], 0xB) := by decide

/-- RX-1. -/
theorem test_rx1_idleWait :
    rxVector .idle 0x3 0x9 false 0x2F = some ⟨false, [], .idle, 0x3, 0x9, true, false, false⟩ := by decide
/-- RX-2: the old `rx.hi` survives. -/
theorem test_rx2_capture :
    rxVector .idle 0x3 0x9 false 0x35 = some ⟨false, [], .loadHigh, 0x3, 0x5, true, false, false⟩ := by decide
/-- RX-4. -/
theorem test_rx4_loadHigh :
    rxVector .loadHigh 0x0 0x5 true 0x3A = some ⟨false, [], .loadLow, 0xA, 0x5, true, false, false⟩ := by decide
/-- RX-5: captured without valid. -/
theorem test_rx5_loadHigh_partial :
    rxVector .loadHigh 0x0 0x5 true 0x26 = some ⟨false, [], .loadLow, 0x6, 0x5, true, false, true⟩ := by decide
/-- RX-6. -/
theorem test_rx6_next :
    rxVector .loadLow 0xA 0x5 true 0x3C = some ⟨true, [0x2A5], .loadHigh, 0xA, 0xC, false, false, false⟩ := by decide
/-- RX-9: lost, and the state still advances. -/
theorem test_rx9_next_overrun :
    rxVector .loadLow 0xF 0xF false 0x10 = some ⟨true, [], .loadHigh, 0xF, 0x0, false, true, false⟩ := by decide
/-- RX-8: a one-byte frame. -/
theorem test_rx8_last :
    rxVector .loadLow 0xA 0x5 true 0x20 = some ⟨true, [0x3A5], .idle, 0xA, 0x5, false, false, false⟩ := by decide
/-- RX-10. -/
theorem test_rx10_last_overrun :
    rxVector .loadLow 0x0 0x0 true 0x09 = some ⟨true, [], .idle, 0x0, 0x0, false, true, false⟩ := by decide
/-- RX-11: `source_data` outside LOAD_LOW. -/
theorem test_rx11_source_data :
    look (step (({ released with rx := { released.rx with hi := 0xA, lo := 0x5 } } : State).push (.rx {})))
      (fun s => (s.rx.out.data, s.rx.out.valid)) = some (0xA5, false) := by decide

/-- The tx stages and `rst_tx` after one idle tx tick from stages `l` with the request at `r`. -/
def rsVector (s : State) (r : Bool) (l : List Bool) : Option (List Bool × Bool) :=
  look (step (((s.setRstReq r).setStages .tx l).push (.tx {}))) (fun t => (t.tx.sync, t.tx.out.rst))

/-- RS-2. -/
theorem test_rs2_high_async : rsVector released true [true, true] = some ([true, true], true) := by decide
/-- RS-7: SHIFT, still no reset. -/
theorem test_rs7_high_shift : rsVector shiftReleased true [true, false] = some ([true, true], false) := by decide
/-- RS-4: the second reset tick after the release. -/
theorem test_rs4_low : rsVector released false [false, true] = some ([false, false], true) := by decide
/-- RS-11, first tick of three stages. -/
theorem test_rs11_low_three : rsVector released false [true, true, true] = some ([false, true, true], true) := by decide

/-- HOST-1, HOST-4 and RS-1. -/
theorem test_host1_write_one :
    look (step (released.push (.host true)))
      (fun s => (s.rstReq, s.phyRstN, s.hostRead s.par.rstReqAddr, s.tx.sync, s.rx.sync)) =
      some (true, false, some true, [true, true], [true, true]) := by decide
/-- HOST-2: the stages stay until the domains tick. -/
theorem test_host2_write_zero :
    look (step ((((released.setRstReq true).setStages .tx [true, true])).push (.host false)))
      (fun s => (s.rstReq, s.phyRstN, s.tx.sync)) = some (false, true, [true, true]) := by decide

/-- BASE-1. -/
theorem test_base1 :
    look (step ((released.setBase { refOut := false, clkOut := false }).push .base))
      (fun s => (s.base.clkOut, s.base.refOut)) = some (false, true) := by decide
/-- BASE-2, with the request standing as in BASE-4. -/
theorem test_base2_under_reset :
    look (step (((released.setBase { refOut := true, clkOut := false }).setRstReq true).push .base))
      (fun s => (s.base.clkOut, s.base.refOut)) = some (true, false) := by decide

/-- OVR-2: consumed and not sent. -/
theorem test_ovr2_tx :
    look
      (step
        (((({ released with tx := { released.tx with state := .sendHigh } } : State)).setStages .tx [false, true]).push
          (.tx (sinkOfWord 0x43C))))
      (fun s => (s.tx.out.ready, s.tx.taken.map Element.word, s.tx.state, s.tx.enQ)) =
      some (true, [0x03C], .idle, false) := by decide
/-- OVR-4: the override replaces the row's record. -/
theorem test_ovr4_tx_record :
    look
      (step
        (((({ released with tx := { released.tx with state := .sendLow } } : State)).setStages .tx [false, true]).push
          (.tx {})))
      (fun s => (s.tx.out.ready, s.tx.state, s.tx.recUnderrun)) = some (false, .idle, false) := by decide
/-- OVR-5. -/
theorem test_ovr5_rx :
    look
      (step
        (((({ released with
              rx := { released.rx with state := .loadLow, hi := 0xA, lo := 0x5, sofPending := true } } : State)).setStages
            .rx [false, true]).push
          (.rx (rxOfWord 0x3C))))
      (fun s => (s.rx.out.valid, s.rx.given.map Element.word, s.rx.state)) = some (true, [0x2A5], .idle) := by decide
/-- OVR-6. -/
theorem test_ovr6_rx :
    look
      (step
        (((({ released with rx := { released.rx with state := .loadHigh } } : State)).setStages .rx [false, true]).push
          (.rx (rxOfWord 0x33))))
      (fun s => (s.rx.out.valid, s.rx.given, s.rx.state, s.rx.recPartial)) = some (false, [], .idle, false) := by decide

/-- Program P3, tick 4: the receiver of a lock-step line sees the pins as the tick found them (D23). -/
theorem test_p3_tick4_loop :
    look
      (step
        (({ released with tx := { released.tx with state := .sendHigh, enQ := true, dataQ := 0x5 } } : State).push
          (.both (sinkOfWord 0x7A5) (.loop true))))
      (fun s => (s.tx.state, s.tx.dataQ, s.rx.state, s.rx.lo)) = some (.idle, 0xA, .loadHigh, 0x5) := by decide

/-! ## Placing a table word -/

theorem test_decodeTableWord :
    decodeTableWord 5 0b00110 = some (.txIdleStart false) ∧ decodeTableWord 3 0b101 = some .rxLoadLowNext ∧
    decodeTableWord 1 0b1 = some (.rsReqHigh .tx) ∧ decodeTableWord 0 0 = some .baseToggle ∧
    decodeTableWord 8 0b10110 = some (.txSendHighNext true) ∧ decodeTableWord 8 0b11000 = none := by decide

/-- SEND_HIGH_NEXT placed at power-on runs in the very next step, a reset tick: ready, and its element taken. -/
theorem test_withFetchWord :
    look (step (State.reset.withFetchWord 8 0b10110)) (fun s => (s.tx.out.ready, s.tx.taken.length, s.tx.out.rst)) =
      some (true, 1, true) ∧
    look (step (State.reset.withFetchWord 3 0b101)) (fun s => (s.rx.out.valid, s.rx.given.length)) = some (true, 1) := by
  decide

/-! ## Witnesses: states and operands that meet a statement's hypotheses, clause by clause -/

/-- A released state with the transmitter in `q`. -/
def txIn (q : TxFsm) : State := { released with tx := { released.tx with state := q } }

/-- A released state with the receiver in `q`. -/
def rxIn (q : RxFsm) : State := { released with rx := { released.rx with state := q } }

theorem witness_DecodeCompleteness :
    (0b10111#5).extractLsb' 3 2 ≠ 0b11#2 ∧ (0b101#3).extractLsb' 1 2 ≠ 0b11#2 ∧
    (0b11000#5).extractLsb' 3 2 = 0b11#2 ∧ (0b11111#5).extractLsb' 3 2 = 0b11#2 ∧
    (0b110#3).extractLsb' 1 2 = 0b11#2 ∧ (0b111#3).extractLsb' 1 2 = 0b11#2 := by decide

theorem witness_DecodeOfEncode : (Instr.rsReqHigh .tx).WellFormed ∧ (Instr.txSendLow true true true).WellFormed := by decide

theorem witness_EncodeOfDecode : decode .rxsel 5 = .ok .rxLoadLowNext ∧ decode (.rssel .rx) 0 = .ok (.rsReqLow .rx) := by
  decide

theorem witness_TxIdleWaitResult :
    0b00011#5 &&& 0b11100#5 = 0b00000#5 ∧ released.resetTick .tx = false := by decide
theorem witness_TxIdleDiscardResult :
    0b00101#5 &&& 0b11110#5 = 0b00100#5 ∧ released.resetTick .tx = false := by decide
theorem witness_TxIdleStartResult :
    0b00111#5 &&& 0b11110#5 = 0b00110#5 ∧ released.resetTick .tx = false := by decide
theorem witness_TxSendLowResult :
    0b01111#5 &&& 0b11000#5 = 0b01000#5 ∧ (txIn .sendLow).resetTick .tx = false := by decide
theorem witness_TxSendHighLastResult :
    0b10111#5 &&& 0b11101#5 = 0b10101#5 ∧ (txIn .sendHigh).resetTick .tx = false := by decide
theorem witness_TxSendHighNextResult :
    0b10110#5 &&& 0b11101#5 = 0b10100#5 ∧ (txIn .sendHigh).resetTick .tx = false := by decide
theorem witness_TxSendHighUnderrunResult :
    0b10011#5 &&& 0b11100#5 = 0b10000#5 ∧ (txIn .sendHigh).resetTick .tx = false := by decide

theorem witness_TxRowsInResetTick :
    (encode (.txSendHighNext true)).fmt = .txsel ∧ State.reset.resetTick .tx = true := by decide

theorem witness_RxIdleWaitResult : 0b000#3 &&& 0b111#3 = 0b000#3 ∧ released.resetTick .rx = false := by decide
theorem witness_RxIdleCaptureResult : 0b001#3 &&& 0b111#3 = 0b001#3 ∧ released.resetTick .rx = false := by decide
theorem witness_RxLoadHighResult :
    0b011#3 &&& 0b110#3 = 0b010#3 ∧ (rxIn .loadHigh).resetTick .rx = false := by decide
theorem witness_RxLoadLowNextResult :
    0b101#3 &&& 0b111#3 = 0b101#3 ∧ (rxIn .loadLow).resetTick .rx = false := by decide
theorem witness_RxLoadLowLastResult :
    0b100#3 &&& 0b111#3 = 0b100#3 ∧ (rxIn .loadLow).resetTick .rx = false := by decide

theorem witness_RxRowsInResetTick :
    (encode .rxLoadLowNext).fmt = .rxsel ∧ State.reset.resetTick .rx = true := by decide

/-- An ASYNC state whose request stands, both chains `[1,1]`. -/
def asyncHeld : State := ((released.setRstReq true).setStages .tx [true, true]).setStages .rx [true, true]

theorem witness_ReqHighResult :
    (ClockDomain.tx.hasSync = true ∧ ClockDomain.rx.hasSync = true) ∧ asyncHeld.Inv ∧
    asyncHeld.par.assertMode = .async ∧ asyncHeld.rstReq = true := ⟨by decide, by decide, by decide, by decide⟩
theorem witness_ReqLowResult : ClockDomain.tx.hasSync = true ∧ ClockDomain.rx.hasSync = true := by decide
theorem witness_BaseHasNoSynchronizer : 0 < 2 ∧ 1 < 2 := by decide

/-- Each kind of line, the tx and rx ones with the operations their selectors name. -/
theorem witness_StepRunsDecodedOperation :
    (released.push (.tx {})).stim = [.tx {}] ∧
    decode .txsel (selTx released.tx.state false false false).toNat = .ok (.txIdleWait false false) ∧
    decode (.rssel .tx) released.rstReq.toNat = .ok (.rsReqLow .tx) ∧
    (released.push (.rx {})).stim = [.rx {}] ∧
    decode .rxsel (selRx released.rx.state false).toNat = .ok .rxIdleWait ∧
    decode (.rssel .rx) released.rstReq.toNat = .ok (.rsReqLow .rx) ∧
    (released.push .base).stim = [.base] ∧ (released.push (.host true)).stim = [.host true] ∧
    (released.push (.both {} (.loop true))).stim = [.both {} (.loop true)] ∧ released.stim = [] := by decide

/-- SYNC_DEPTH 2 is the least legal one (rule R7). -/
theorem witness_PowerOnMeetsInvariant :
    Params.default.Legal ∧ Params.Legal { Params.default with syncDepth := 5, assertMode := .shift } ∧
    ¬ Params.Legal { Params.default with syncDepth := 1 } := by decide

/-- The invariant holds in every FSM state a run reaches, and a step is taken from there. -/
theorem witness_StepKeepsInvariant :
    State.reset.Inv ∧ (txIn .sendLow).Inv ∧ (rxIn .loadLow).Inv ∧
    ∃ t, step (State.reset.push (.host true)) = .next t := by
  exact ⟨by decide, by decide, by decide, _, rfl⟩

theorem witness_OnlyHostWritesRequest :
    (∀ l ∈ (released.push .base).stim.head?, l.isHost = false) ∧ (∃ t, step (released.push .base) = .next t) ∧
    (released.push (.host true)).stim = [.host true] ∧ (released.push (.host false)).stim = [.host false] := by
  exact ⟨by decide, ⟨_, rfl⟩, rfl, rfl⟩

/-- Every clause: a line without a tick of tx, without a tick of rx, a tx tick, an rx tick, a lock-step line. -/
theorem witness_ControlStateMovesByRowOrReset :
    (released.push .base).stim = [.base] ∧ Line.ticks .tx .base = false ∧ Line.ticks .rx (.tx {}) = false ∧
    (released.push (.both {} (.loop true))).stim = [.both {} (.loop true)] ∧
    (∃ i r, Line.both {} (.loop true) = .both i r) := by
  exact ⟨rfl, rfl, rfl, rfl, _, _, rfl⟩

theorem witness_ReadinessProfile :
    (txIn .idle).tx.state = .idle ∧ (txIn .sendLow).tx.state = .sendLow ∧ (txIn .sendHigh).tx.state = .sendHigh := by decide

theorem witness_PinsShowPreviousTick :
    (txIn .idle).resetTick .tx = false ∧ (txIn .sendLow).resetTick .tx = false ∧
    (txIn .sendHigh).resetTick .tx = false := by decide

/-- In each state two different inputs that agree on all the state reads. -/
theorem witness_InputsReadPerState :
    ((txIn .idle).tx.state = .idle ∧ (sinkOfWord 0x6A5).valid = (sinkOfWord 0x75A).valid ∧
      (sinkOfWord 0x6A5).sof = (sinkOfWord 0x75A).sof ∧ sinkOfWord 0x6A5 ≠ sinkOfWord 0x75A) ∧
    ((txIn .sendLow).tx.state = .sendLow ∧ (sinkOfWord 0x7A5).valid = (sinkOfWord 0x4B5).valid ∧
      (sinkOfWord 0x7A5).data.extractLsb' 0 4 = (sinkOfWord 0x4B5).data.extractLsb' 0 4 ∧
      sinkOfWord 0x7A5 ≠ sinkOfWord 0x4B5) ∧
    ((txIn .sendHigh).tx.state = .sendHigh ∧ (sinkOfWord 0x5A5).valid = (sinkOfWord 0x7AB).valid ∧
      (sinkOfWord 0x5A5).eof = (sinkOfWord 0x7AB).eof ∧
      (sinkOfWord 0x5A5).data.extractLsb' 4 4 = (sinkOfWord 0x7AB).data.extractLsb' 4 4 ∧
      sinkOfWord 0x5A5 ≠ sinkOfWord 0x7AB) := ⟨by decide, by decide, by decide⟩

/-- The bounds of k: first tick, first and last nibble, last tick. -/
theorem witness_FrameOnPins :
    (txIn .idle).Released .tx ∧ (txIn .idle).tx.state = .idle ∧ ([0xA5, 0x3C] : List Byte) ≠ [] ∧
    0 ≤ 2 * ([0xA5, 0x3C] : List Byte).length + 2 ∧ (2 ≤ 2 ∧ 2 ≤ 2 * ([0xA5, 0x3C] : List Byte).length + 1) ∧
    (2 ≤ 5 ∧ 5 ≤ 2 * ([0xA5, 0x3C] : List Byte).length + 1) ∧ 4 ≤ 2 * ([0xA5, 0x3C] : List Byte).length ∧
    6 ≤ 2 * ([0xA5, 0x3C] : List Byte).length + 2 := by decide

theorem witness_FramesAreTakenInOrder :
    released.Released .tx ∧ released.tx.state = .idle ∧ released.tx.offer = none ∧
    (∀ bs ∈ ([[0xA5], [0x3C, 0x7E]] : List (List Byte)), bs ≠ []) := by decide

/-- L1-10 (a): an open frame offered for ever. -/
theorem witness_OpenFrameNeverEnds :
    (txIn .sendLow).Released .tx ∧ (txIn .sendLow).tx.state = .sendLow ∧
    ∀ n : Nat, ¬(((fun _ => sinkOfWord 0x611) (2 * n + 1)).valid = true ∧
      ((fun _ => sinkOfWord 0x611) (2 * n + 1)).eof = true) := by
  exact ⟨by decide, by decide, fun _ h => absurd (show (sinkOfWord 0x611).eof = true from h.2) (by decide)⟩

/-- `rx_dv` in the first four ticks, one pair (m = 0) and two pairs (m = 1), as in program P2. -/
theorem witness_ReceiverPresentsPairs :
    released.Released .rx ∧ released.rx.state = .idle ∧
    ((fun n : Nat => ({ dv := decide (n < 4) } : RxIn)) 0).dv = true ∧
    (∀ k, k < 0 → ((fun n : Nat => ({ dv := decide (n < 4) } : RxIn)) (2 * k + 2)).dv = true) ∧
    (∀ k, k < 1 → ((fun n : Nat => ({ dv := decide (n < 4) } : RxIn)) (2 * k + 2)).dv = true) := by decide

/-- Program P5: three valid nibbles and a gap (m = 1), with the tick after the gap valid or not. -/
theorem witness_OddRunCompletesTheByte :
    released.Released .rx ∧ released.rx.state = .idle ∧
    (∀ k, k ≤ 2 * 1 → ((fun n : Nat => ({ dv := decide (n ≠ 3) } : RxIn)) k).dv = true) ∧
    ((fun n : Nat => ({ dv := decide (n ≠ 3) } : RxIn)) (2 * 1 + 1)).dv = false ∧
    (∀ k, k ≤ 2 * 0 → ((fun n : Nat => ({ dv := decide (n < 1) } : RxIn)) k).dv = true) ∧
    ((fun n : Nat => ({ dv := decide (n < 1) } : RxIn)) (2 * 0 + 1)).dv = false := by decide

theorem witness_ReceivedFramesAreWellFormed :
    released.Released .rx ∧ released.rx.state = .idle ∧ HostQuiet (rxbytes [0xA5, 0x3C]) ∧
    (∀ l ∈ rxbytes [0xA5, 0x3C], l.consumerReady = true) := by decide

/-- RX-9. -/
theorem witness_OverrunLosesTheElement :
    (rxIn .loadLow).resetTick .rx = false ∧ (rxIn .loadLow).rx.state = .loadLow ∧ (rxOfWord 0x10).ready = false := by decide

/-- The two frames of program P3. -/
theorem witness_LoopbackReproducesFrames :
    released.Released .tx ∧ released.Released .rx ∧ released.tx.state = .idle ∧ released.tx.enQ = false ∧
    released.tx.offer = none ∧ released.rx.state = .idle ∧ released.NoRecord ∧
    (∀ bs ∈ ([[0xA5], [0x3C, 0x7E]] : List (List Byte)), bs ≠ []) := by decide

/-- Runs without a tick of each domain, the second with a host write of 1 in SHIFT mode. -/
theorem witness_StoppedClockKeepsItsDomain :
    ticksOf .base [.tx {}, .rx {}] = 0 ∧ ticksOf .tx [.rx {}, .host true] = 0 ∧ ticksOf .rx [.tx {}, .host false] = 0 ∧
    shiftReleased.par.assertMode = .shift ∧ Line.host true ∉ [.tx {}, .host false] := by decide

theorem witness_ResetTickForcesIdle : State.reset.resetTick .tx = true ∧ State.reset.resetTick .rx = true := by decide

/-- Program P1's first ticks; N = 2 ticks and one more. -/
theorem witness_PowerOnResetTicks :
    Params.default.Legal ∧ HostQuiet [.tx {}, .rx {}, .base, .tx {}, .tx {}] ∧
    ticksOf .tx [.tx {}, .rx {}, .base, .tx {}, .tx {}] = 3 ∧ 0 < ticksOf .rx [.tx {}, .rx {}, .base, .tx {}, .tx {}] := by
  decide

/-- Program P6's writes: no tick before the release in one domain, N and more ticks after it. -/
theorem witness_AsyncResetLatency :
    released.Inv ∧ released.par.assertMode = .async ∧ HostQuiet [.base, .tx {}] ∧ HostQuiet [.tx {}, .tx {}, .tx {}, .rx {}] ∧
    0 < ticksOf .tx [.base, .tx {}] ∧ 0 < ticksOf .rx [.tx {}, .tx {}, .tx {}, .rx {}] := by decide

/-- A held state in SHIFT mode: the request stands and both chains are `[1,1]`. -/
def shiftHeld : State := ((shiftReleased.setRstReq true).setStages .tx [true, true]).setStages .rx [true, true]

/-- RS-6 to RS-9: released and held domains, with ticks and without. -/
theorem witness_ShiftResetLatency :
    shiftReleased.Inv ∧ shiftHeld.Inv ∧ shiftHeld.par.assertMode = .shift ∧
    (HostQuiet [.tx {}, .rx {}] ∧ 0 < ticksOf .tx [.tx {}, .rx {}] ∧ 0 < ticksOf .rx [.tx {}, .rx {}]) ∧
    (shiftReleased.Released .tx ∧ shiftReleased.Released .rx) ∧ (shiftHeld.Held .tx ∧ shiftHeld.Held .rx) ∧
    ticksOf .tx [.base] = 0 ∧ ticksOf .rx [.base] = 0 :=
  ⟨by decide, by decide, by decide, by decide, by decide, by decide, by decide⟩

theorem witness_HeldResetStaysInIdle :
    (shiftHeld.Inv ∧ HostQuiet [.tx {}, .rx {}, .tx {}, .rx {}]) ∧ (shiftHeld.Held .tx ∧ shiftHeld.Held .rx) ∧
    2 ≤ ticksOf .tx [.tx {}, .rx {}, .tx {}, .rx {}] ∧ 2 ≤ ticksOf .rx [.tx {}, .rx {}, .tx {}, .rx {}] :=
  ⟨by decide, by decide, by decide⟩

/-- A state with every record set, and a step from it. -/
theorem witness_RecordsAreNeverCleared :
    ∃ s t, s.tx.recDiscard = true ∧ s.tx.recUnderrun = true ∧ s.tx.recUnstable = true ∧ s.rx.recOverrun = true ∧
      s.rx.recPartial = true ∧ step s = .next t := by
  exact ⟨({ released with
      tx := { released.tx with recDiscard := true, recUnderrun := true, recUnstable := true }
      rx := { released.rx with recOverrun := true, recPartial := true } } : State).push .base,
    _, rfl, rfl, rfl, rfl, rfl, rfl⟩

end Sys2Proof.Tests
end

section
/-!
What one step can do, and what a tick does to the control registers and flags it writes: the field lemmas of Laws/Tick.lean,
continued.
-/

namespace Sys2Proof.Machine

/-- A step runs the next line, and only an empty stimulus lets it change nothing (rule R116; log entry 2). -/
theorem step_cases {s t : State} (h : step s = .next t) :
    (s.stim = [] ∧ t = s) ∨ ∃ l ls, s.stim = l :: ls ∧ t = lineStep l (s.setStim ls) := by
  cases hs : s.stim with
  | nil =>
    rw [step_of_nil hs] at h
    cases h
    exact .inl ⟨rfl, rfl⟩
  | cons l ls =>
    rw [step_of_stim hs] at h
    cases h
    exact .inr ⟨l, ls, rfl, rfl⟩

/-- A lock-step line is its tx tick and then its rx tick, with the rx inputs as the line found them (rule R65, D23). -/
theorem lineStep_both (i : SinkIn) (r : RxFeed) (s : State) :
    lineStep (.both i r) s = lineStep (.rx (r.inputs s)) (lineStep (.tx i) s) := rfl

/-- The rx inputs of a lock-step line read no stimulus. -/
theorem inputs_setStim (r : RxFeed) (s : State) (ls : List Line) : r.inputs (s.setStim ls) = r.inputs s := by
  cases r <;> rfl

@[simp] theorem hostStep_rstReq (v : Bool) (s : State) : (hostStep v s).rstReq = v := by
  unfold hostStep; split <;> rfl

/-- A host read at RST_REQ_ADDR gives the stored bit (rule R27, D24). -/
@[simp] theorem hostRead_rstReqAddr (s : State) : s.hostRead s.par.rstReqAddr = some s.rstReq := if_pos rfl

section
variable (m : AssertMode) (req : Bool) (i : SinkIn) (x : RxIn) (t : TxDomain) (r : RxDomain)

/-- A tx tick goes to its row's next state, a reset tick to IDLE (rules R67, R100, R110). -/
theorem txStep_state :
    (txStep m req i t).state = if lastStage t.sync then .idle else (txRow t.state i).next := by
  cases h : lastStage t.sync
  · simp [txStep_of_normal _ _ _ _ h, TxDomain.load, TxDomain.watch, TxDomain.drive, h]
  · simp [txStep_of_reset _ _ _ _ h, TxDomain.forceIdle]

/-- A tx tick loads its row's enable, a reset tick 0 (rules R67, R100). -/
theorem txStep_enQ :
    (txStep m req i t).enQ = if lastStage t.sync then false else (txRow t.state i).en := by
  cases h : lastStage t.sync
  · simp [txStep_of_normal _ _ _ _ h, TxDomain.load, TxDomain.watch, TxDomain.drive, h]
  · simp [txStep_of_reset _ _ _ _ h, TxDomain.forceIdle]

/-- An rx tick goes to its row's next state, a reset tick to IDLE (rules R81, R101, R110). -/
theorem rxStep_state :
    (rxStep m req x r).state = if lastStage r.sync then .idle else (rxRow r x).next := by
  cases h : lastStage r.sync
  · simp [rxStep_of_normal _ _ _ _ h, RxDomain.load, RxDomain.drive, h]
  · simp [rxStep_of_reset _ _ _ _ h, RxDomain.forceIdle]

/-- Out of reset an rx tick loads its row's start-of-frame flag (rules R82 to R86). -/
theorem rxStep_sofPending_of_normal (h : lastStage r.sync = false) :
    (rxStep m req x r).sofPending = (rxRow r x).sofPending := by
  simp [rxStep_of_normal _ _ _ _ h, RxDomain.load, RxDomain.drive, h]

end

end Sys2Proof.Machine
end

section
/-!
The machine's invariant, one part per domain and one for the chains under a standing request: each part is kept by the
operations that can touch it, and a line is made of those operations.
-/

namespace Sys2Proof.Machine

/-- The tx domain's part of the invariant, for N synchronizer stages (rules R16, R20, R37, R67, R71). -/
structure TxDomain.Sound (n : Nat) (t : TxDomain) : Prop where
  length : t.sync.length = n
  er_low : t.out.er = false
  enabled_in_sendHigh : t.state = .sendHigh → t.enQ = true
  owes_nothing_in_idle : t.state = .idle → t.offer = none

/-- The rx domain's part of the invariant, for N synchronizer stages (rules R16, R83, R85, R87, R89). -/
structure RxDomain.Sound (n : Nat) (r : RxDomain) : Prop where
  length : r.sync.length = n
  silent_in_loadLow : r.state = .loadLow → r.out.valid = false
  sof_in_loadHigh : r.state = .loadHigh → r.sofPending = !r.out.valid

/-- In ASYNC mode both chains are all 1 while the request stands (rules R95, R98). -/
def State.RequestHoldsChains (s : State) : Prop :=
  s.par.assertMode = .async → s.rstReq = true → (∀ b ∈ s.tx.sync, b = true) ∧ (∀ b ∈ s.rx.sync, b = true)

/-- The invariant of Safety.lean is these parts and a legal SYNC_DEPTH. -/
theorem inv_iff (s : State) :
    s.Inv ↔ s.par.Legal ∧ s.tx.Sound s.par.syncDepth ∧ s.rx.Sound s.par.syncDepth ∧ s.RequestHoldsChains := by
  constructor
  · rintro ⟨legal, txLen, rxLen, chains, er, high, idle, low, sof⟩
    exact ⟨legal, ⟨txLen, er, high, idle⟩, ⟨rxLen, low, sof⟩, chains⟩
  · rintro ⟨legal, ⟨txLen, er, high, idle⟩, ⟨rxLen, low, sof⟩, chains⟩
    exact ⟨legal, txLen, rxLen, chains, er, high, idle, low, sof⟩

/-! Power-on -/

theorem powerOn_tx_sound (n : Nat) : (TxDomain.powerOn n).Sound n :=
  ⟨List.length_replicate, rfl, nofun, fun _ => rfl⟩

theorem powerOn_rx_sound (n : Nat) : (RxDomain.powerOn n).Sound n :=
  ⟨List.length_replicate, nofun, nofun⟩

/-- Every stage powers on at 1 (D13), so a request that stands from power-on finds its chains held. -/
theorem powerOn_requestHoldsChains (p : Params) : (State.powerOn p).RequestHoldsChains :=
  fun _ _ => ⟨fun _ hb => List.eq_of_mem_replicate hb, fun _ hb => List.eq_of_mem_replicate hb⟩

theorem powerOn_inv {p : Params} (h : p.Legal) : (State.powerOn p).Inv :=
  (inv_iff _).2 ⟨h, powerOn_tx_sound _, powerOn_rx_sound _, powerOn_requestHoldsChains p⟩

/-! Ticks and presets -/

/-- A tick under a standing request leaves a chain of 1s all 1 (rules R98, R104). -/
theorem mem_nextStages_held {m : AssertMode} {req : Bool} {l : List Bool} (hreq : req = true) (h : ∀ b ∈ l, b = true) :
    ∀ b ∈ nextStages m req l, b = true := by
  rwa [hreq, nextStages_held m h]

/-- Only the length of a chain matters to its domain's part. -/
theorem TxDomain.Sound.withSync {n : Nat} {t : TxDomain} {l : List Bool} (h : t.Sound n) (hl : l.length = n) :
    TxDomain.Sound n { t with sync := l } :=
  ⟨hl, h.er_low, h.enabled_in_sendHigh, h.owes_nothing_in_idle⟩

theorem RxDomain.Sound.withSync {n : Nat} {r : RxDomain} {l : List Bool} (h : r.Sound n) (hl : l.length = n) :
    RxDomain.Sound n { r with sync := l } :=
  ⟨hl, h.silent_in_loadLow, h.sof_in_loadHigh⟩

/-- The only row that goes to SEND_HIGH is SEND_LOW's, which enables (rule R71). -/
theorem txRow_en_of_next_sendHigh {q : TxFsm} {i : SinkIn} (h : (txRow q i).next = .sendHigh) : (txRow q i).en = true := by
  cases q with
  | idle => cases hv : i.valid && i.sof <;> simp [txRow, hv] at h
  | sendLow => rfl
  | sendHigh => rfl

/-- A row that goes to IDLE is ready, so it leaves nothing owed (rules R68, R69, R72). -/
theorem txRow_ready_of_next_idle {q : TxFsm} {i : SinkIn} (h : (txRow q i).next = .idle) : (txRow q i).ready = true := by
  cases q with
  | idle => cases hv : i.valid && i.sof <;> simp [txRow, hv] at h ⊢
  | sendLow => simp [txRow] at h
  | sendHigh => rfl

/-- The only row that goes to LOAD_LOW is LOAD_HIGH's, which presents nothing (rule R84). -/
theorem rxRow_silent_of_next_loadLow {r : RxDomain} {x : RxIn} (h : (rxRow r x).next = .loadLow) :
    (rxRow r x).valid = false := by
  cases hq : r.state with
  | idle => cases hd : x.dv <;> simp [rxRow, hq, hd] at h
  | loadHigh => simp [rxRow, hq]
  | loadLow => cases hd : x.dv <;> simp [rxRow, hq, hd] at h

/-- A row that goes to LOAD_HIGH arms sof_pending from IDLE, and clears it when it presents a byte (rules R83, R85). -/
theorem rxRow_sof_of_next_loadHigh {r : RxDomain} {x : RxIn} (h : (rxRow r x).next = .loadHigh) :
    (rxRow r x).sofPending = !(rxRow r x).valid := by
  cases hq : r.state with
  | idle => simp [rxRow, hq]
  | loadHigh => simp [rxRow, hq] at h
  | loadLow => simp [rxRow, hq]

/-- A tx tick establishes its domain's part whatever the registers were: its row or the override has just written them. -/
theorem txStep_sound (m : AssertMode) (req : Bool) (i : SinkIn) {n : Nat} {t : TxDomain} (hlen : t.sync.length = n) :
    (txStep m req i t).Sound n where
  length := by simp [hlen]
  er_low := by rw [txStep_out]
  enabled_in_sendHigh h := by
    cases hr : lastStage t.sync
    · simp only [txStep_state, hr] at h
      simpa [txStep_enQ, hr] using txRow_en_of_next_sendHigh h
    · simp [txStep_state, hr] at h
  owes_nothing_in_idle h := by
    cases hr : lastStage t.sync
    · simp only [txStep_state, hr] at h
      have ready : (txRow t.state i).ready = true := txRow_ready_of_next_idle h
      simp [txStep_offer, duty, ready]
    · simp [txStep_offer, duty, hr]

/-- An rx tick establishes its domain's part whatever the registers were. -/
theorem rxStep_sound (m : AssertMode) (req : Bool) (x : RxIn) {n : Nat} {r : RxDomain} (hlen : r.sync.length = n) :
    (rxStep m req x r).Sound n where
  length := by simp [hlen]
  silent_in_loadLow h := by
    cases hr : lastStage r.sync
    · simp only [rxStep_state, hr] at h
      rw [rxStep_out_valid]
      exact rxRow_silent_of_next_loadLow h
    · simp [rxStep_state, hr] at h
  sof_in_loadHigh h := by
    cases hr : lastStage r.sync
    · simp only [rxStep_state, hr] at h
      rw [rxStep_out_valid, rxStep_sofPending_of_normal _ _ _ _ hr]
      exact rxRow_sof_of_next_loadHigh h
    · simp [rxStep_state, hr] at h

/-! Lines -/

theorem lineStep_tx_inv (i : SinkIn) {s : State} (h : s.Inv) : (lineStep (.tx i) s).Inv := by
  obtain ⟨legal, tx, rx, chains⟩ := (inv_iff s).1 h
  refine (inv_iff _).2 ⟨legal, txStep_sound _ _ _ tx.length, rx, fun hm hr => ?_⟩
  obtain ⟨txHeld, rxHeld⟩ := chains hm hr
  exact ⟨mem_nextStages_held hr txHeld, rxHeld⟩

theorem lineStep_rx_inv (x : RxIn) {s : State} (h : s.Inv) : (lineStep (.rx x) s).Inv := by
  obtain ⟨legal, tx, rx, chains⟩ := (inv_iff s).1 h
  refine (inv_iff _).2 ⟨legal, tx, rxStep_sound _ _ _ rx.length, fun hm hr => ?_⟩
  obtain ⟨txHeld, rxHeld⟩ := chains hm hr
  exact ⟨txHeld, mem_nextStages_held hr rxHeld⟩

/-- A host write that raises the request in ASYNC mode presets both chains; any other leaves nothing for them to hold. -/
theorem hostStep_inv (v : Bool) {s : State} (h : s.Inv) : (hostStep v s).Inv := by
  obtain ⟨legal, tx, rx, -⟩ := (inv_iff s).1 h
  by_cases hp : s.par.assertMode = .async ∧ v = true
  · rw [hostStep, if_pos hp]
    exact (inv_iff _).2 ⟨legal, tx.withSync (by simp [tx.length]), rx.withSync (by simp [rx.length]),
      fun _ _ => ⟨fun _ => mem_presetAll, fun _ => mem_presetAll⟩⟩
  · rw [hostStep, if_neg hp]
    exact (inv_iff _).2 ⟨legal, tx, rx, fun hm hv => absurd ⟨hm, hv⟩ hp⟩

theorem lineStep_inv (l : Line) {s : State} (h : s.Inv) : (lineStep l s).Inv := by
  cases l with
  | tx i => exact lineStep_tx_inv i h
  | rx x => exact lineStep_rx_inv x h
  | base => exact h
  | host v => exact hostStep_inv v h
  | both i r => rw [lineStep_both]; exact lineStep_rx_inv _ (lineStep_tx_inv i h)

/-- Settles O31: each line keeps the invariant, which speaks of no stimulus. -/
theorem stepKeepsInvariant : Obligations.StepKeepsInvariant := by
  intro s hs t ht
  rcases step_cases ht with ⟨-, rfl⟩ | ⟨l, ls, -, rfl⟩
  · exact hs
  · exact lineStep_inv l (s := s.setStim ls) hs

/-- Settles O30: the power-on state of any legal parameters, of which the defaults of R7 are one set. -/
theorem powerOnMeetsInvariant : Obligations.PowerOnMeetsInvariant :=
  ⟨fun _ h => powerOn_inv h, powerOn_inv (show 2 ≤ Params.default.syncDepth from le_rfl)⟩

/-- Settles O29: the values stand in the power-on state as it is written. -/
theorem powerOnValues : Obligations.PowerOnValues :=
  ⟨fun _ => ⟨rfl, rfl, rfl, rfl, rfl, rfl, rfl, rfl, rfl, rfl, rfl, rfl, rfl⟩, rfl, rfl, rfl⟩

end Sys2Proof.Machine
end

section
/-!
The parameters and the reset request under a step, and the operations a step runs.
-/

namespace Sys2Proof.Machine

theorem step_par {s t : State} (h : step s = .next t) : t.par = s.par := by
  rcases step_cases h with ⟨-, rfl⟩ | ⟨l, ls, -, rfl⟩
  · rfl
  · exact lineStep_par l _

/-- Only a host line writes the reset request (rule R14). -/
theorem step_rstReq {s t : State} (h : step s = .next t) (hq : ∀ l ∈ s.stim.head?, l.isHost = false) :
    t.rstReq = s.rstReq := by
  rcases step_cases h with ⟨-, rfl⟩ | ⟨l, ls, hs, rfl⟩
  · rfl
  · exact lineStep_rstReq (hq l (by simp [hs])) _

/-- After a step a host read at RST_REQ_ADDR gives the bit as the step left it. -/
theorem step_hostRead {s t : State} (h : step s = .next t) : t.hostRead s.par.rstReqAddr = some t.rstReq := by
  rw [← step_par h, hostRead_rstReqAddr]

/-- Settles O33: the read-back follows the stored bit, which only a host line writes. -/
theorem onlyHostWritesRequest : Obligations.OnlyHostWritesRequest := by
  refine ⟨fun s t h => ⟨step_par h, fun hq => ⟨step_rstReq h hq, ?_⟩⟩, fun s v ls hs => ?_⟩
  · rw [step_hostRead h, hostRead_rstReqAddr, step_rstReq h hq]
  · have h : step s = .next (hostStep v (s.setStim ls)) := step_of_stim hs
    exact ⟨_, h, hostStep_rstReq v _, by rw [step_hostRead h, hostStep_rstReq]⟩

/-- A step is the run of its next line, which is taken off the stimulus (rule R65). -/
theorem step_eq_runLine {s : State} {l : Line} {ls : List Line} (h : s.stim = l :: ls) :
    step s = runLine l (s.setStim ls) := by
  rw [step_of_stim h, runLine_eq]

/-- A selector word runs the operation it decodes to (rule R52). -/
theorem runRow_of_decode {fmt : Format} {w : Nat} {op : Instr} (h : decode fmt w = .ok op) (s : State) :
    runRow ⟨fmt, w⟩ s = exec op s := by
  simp [runRow, h]

/-- RSTOVR of a reset tick runs the domain's override, of any other tick nothing (rule R58). -/
theorem runOverride_of_decode {d : ClockDomain} {ov : Instr} (h : decode (.rstovr d) 1 = .ok ov) (rst : Bool) (s : State) :
    runOverride d rst s = if rst then exec ov s else .next s := by
  cases rst
  · rfl
  · exact runRow_of_decode h s

/-- After its FSM row a tick runs the override of a reset tick and then the ResetSync row of the sampled request. -/
theorem finishTick_of_decode {d : ClockDomain} {req : Bool} {ov rs : Instr} (hov : decode (.rstovr d) 1 = .ok ov)
    (hrs : decode (.rssel d) req.toNat = .ok rs) (rst : Bool) :
    finishTick d rst req = fun t => andThen (if rst then exec ov t else .next t) (exec rs) := by
  funext t
  rw [finishTick, runOverride_of_decode hov]
  exact congrArg (andThen _) (funext (runRow_of_decode hrs))

/-- Settles O27, line by line: a tick composes the rows its three selector words decode to. -/
theorem stepRunsDecodedOperation : Obligations.StepRunsDecodedOperation := by
  refine ⟨fun s i ls op rs hs hop hrs => ?tx, fun s i ls op rs hs hop hrs => ?rx, fun s ls hs => ?base,
    fun s v ls hs => ?host, fun s i r ls hs => ?both, fun s hs => step_of_nil hs⟩
  case tx =>
    rw [step_eq_runLine hs, runLine, tickTx, setStim_rstReq, finishTick_of_decode (ov := .txResetOverride) rfl hrs]
    exact congrArg (andThen · _) (runRow_of_decode hop _)
  case rx =>
    rw [step_eq_runLine hs, runLine, tickRx, setStim_rstReq, finishTick_of_decode (ov := .rxResetOverride) rfl hrs]
    exact congrArg (andThen · _) (runRow_of_decode hop _)
  case base => exact step_eq_runLine hs
  case host =>
    have hd : decode .hostw v.toNat = .ok (.hostWriteResetReq v) := by cases v <;> rfl
    rw [step_eq_runLine hs, runLine, runRow_of_decode hd]
    rfl
  case both =>
    have txFirst : step (s.setStim (.tx i :: ls)) = .next (lineStep (.tx i) (s.setStim ls)) := step_cons _ _ _
    have thenRx (t : State) : step (t.setStim (.rx (r.inputs s) :: ls)) = .next (lineStep (.rx (r.inputs s)) (t.setStim ls)) :=
      step_cons _ _ _
    calc step s
        = .next (lineStep (.rx (r.inputs s)) (lineStep (.tx i) (s.setStim ls))) := by
          rw [step_of_stim hs, lineStep_both, inputs_setStim]
      _ = andThen (step (s.setStim (.tx i :: ls))) (fun t => step (t.setStim (.rx (r.inputs s) :: ls))) := by
          rw [txFirst, andThen_next, thenRx]; rfl

end Sys2Proof.Machine
end

section
/-!
What each agent's line leaves alone, and where a line takes the two control registers.
-/

namespace Sys2Proof.Machine

/-- A host write stores the request and touches of the two domains the chains alone (rule R95). -/
theorem hostStep_frame (v : Bool) (s : State) :
    hostStep v s =
      { s with
        rstReq := v
        tx := { s.tx with sync := (hostStep v s).tx.sync }
        rx := { s.rx with sync := (hostStep v s).rx.sync } } := by
  unfold hostStep; split <;> rfl

/-- Settles O32: a tick or a toggle is an update of its own part alone, a host write one of the request and the chains. -/
theorem agentsWriteTheirOwnState : Obligations.AgentsWriteTheirOwnState := by
  intro s ls
  exact ⟨fun i => ⟨_, step_of_stim rfl, rfl⟩, fun i => ⟨_, step_of_stim rfl, rfl⟩, ⟨_, step_of_stim rfl, rfl⟩,
    fun v => ⟨_, step_of_stim rfl, hostStep_frame v (s.setStim ls)⟩⟩

/-- The transmitter's state stands still on a line without a tx tick, a host write included (rules R25, R110). -/
theorem lineStep_tx_state_of_no_tick {l : Line} (h : l.ticks .tx = false) (s : State) :
    (lineStep l s).tx.state = s.tx.state := by
  cases l with
  | tx i => cases h
  | both i r => cases h
  | host v => rw [lineStep, hostStep_frame]
  | _ => rfl

/-- The receiver's state stands still on a line without an rx tick, a host write included (rules R25, R110). -/
theorem lineStep_rx_state_of_no_tick {l : Line} (h : l.ticks .rx = false) (s : State) :
    (lineStep l s).rx.state = s.rx.state := by
  cases l with
  | rx i => cases h
  | both i r => cases h
  | host v => rw [lineStep, hostStep_frame]
  | _ => rfl

/-- The next state of a tx row (rules R68 to R74). -/
theorem txRow_next (q : TxFsm) (i : SinkIn) :
    (txRow q i).next =
      match q with
      | .idle => if i.valid = true ∧ i.sof = true then .sendLow else .idle
      | .sendLow => .sendHigh
      | .sendHigh => if i.valid = true ∧ i.eof = true then .idle else .sendLow := by
  cases q <;> simp [txRow]

/-- The next state of an rx row (rules R82 to R86). -/
theorem rxRow_next (r : RxDomain) (x : RxIn) :
    (rxRow r x).next =
      match r.state with
      | .idle => if x.dv then .loadHigh else .idle
      | .loadHigh => .loadLow
      | .loadLow => if x.dv then .loadHigh else .idle := by
  cases h : r.state <;> simp [rxRow, h]

/-- Settles O34: a line is a tick of the domain or leaves its state alone. -/
theorem controlStateMovesByRowOrReset : Obligations.ControlStateMovesByRowOrReset := by
  intro s l ls hs
  refine ⟨_, step_of_stim hs, fun h => lineStep_tx_state_of_no_tick h _, fun h => lineStep_rx_state_of_no_tick h _,
    fun i hl => ?tx, fun x hl => ?rx⟩
  case tx =>
    have tick : (lineStep l (s.setStim ls)).tx = txStep s.par.assertMode s.rstReq i s.tx := by
      rcases hl with rfl | ⟨r, rfl⟩ <;> rfl
    rw [tick, txStep_state, txRow_next]
    rfl
  case rx =>
    have tick : (lineStep l (s.setStim ls)).rx = rxStep s.par.assertMode s.rstReq x s.rx := by
      rcases hl with rfl | ⟨j, r, rfl, rfl⟩
      · rfl
      · rw [← inputs_setStim r s ls]; rfl
    rw [tick, rxStep_state, rxRow_next]
    rfl

end Sys2Proof.Machine
end

section
/-!
The records of rule R34: what a tick adds to them, and that nothing else of a line's effect reads them.
-/

namespace Sys2Proof.Machine

section
variable (m : AssertMode) (req : Bool) (i : SinkIn) (x : RxIn) (t : TxDomain) (r : RxDomain)

/-- A tx tick sets tx_discard by its row, a reset tick not at all (rules R69, R100; log entry 8). -/
theorem txStep_recDiscard :
    (txStep m req i t).recDiscard = (t.recDiscard || (!lastStage t.sync && (txRow t.state i).discard)) := by
  cases h : lastStage t.sync
  · simp [txStep_of_normal _ _ _ _ h, TxDomain.load, TxDomain.watch, TxDomain.drive, h]
  · simp [txStep_of_reset _ _ _ _ h, TxDomain.forceIdle, TxDomain.watch, TxDomain.drive]

/-- A tx tick sets tx_underrun by its row, a reset tick not at all (rules R71, R74, R100; log entry 8). -/
theorem txStep_recUnderrun :
    (txStep m req i t).recUnderrun = (t.recUnderrun || (!lastStage t.sync && (txRow t.state i).underrun)) := by
  cases h : lastStage t.sync
  · simp [txStep_of_normal _ _ _ _ h, TxDomain.load, TxDomain.watch, TxDomain.drive, h]
  · simp [txStep_of_reset _ _ _ _ h, TxDomain.forceIdle, TxDomain.watch, TxDomain.drive]

/-- An rx tick sets rx_overrun when it presents to a consumer that is not ready, a reset tick not at all (rules R87, R101; log
entry 8). -/
theorem rxStep_recOverrun :
    (rxStep m req x r).recOverrun = (r.recOverrun || (!lastStage r.sync && ((rxRow r x).valid && !x.ready))) := by
  cases h : lastStage r.sync
  · simp [rxStep_of_normal _ _ _ _ h, RxDomain.load, RxDomain.drive, h]
  · simp [rxStep_of_reset _ _ _ _ h, RxDomain.forceIdle, RxDomain.drive]

/-- An rx tick sets rx_partial by its row, a reset tick not at all (rules R84, R101; log entry 8). -/
theorem rxStep_recPartial :
    (rxStep m req x r).recPartial = (r.recPartial || (!lastStage r.sync && (rxRow r x).short)) := by
  cases h : lastStage r.sync
  · simp [rxStep_of_normal _ _ _ _ h, RxDomain.load, RxDomain.drive, h]
  · simp [rxStep_of_reset _ _ _ _ h, RxDomain.forceIdle, RxDomain.drive]

end

/-! No record is cleared -/

/-- Each tx record that is set in `t` is set in `u`. -/
structure TxDomain.RecordsKept (t u : TxDomain) : Prop where
  discard : t.recDiscard = true → u.recDiscard = true
  underrun : t.recUnderrun = true → u.recUnderrun = true
  unstable : t.recUnstable = true → u.recUnstable = true

/-- Each rx record that is set in `r` is set in `u`. -/
structure RxDomain.RecordsKept (r u : RxDomain) : Prop where
  overrun : r.recOverrun = true → u.recOverrun = true
  short : r.recPartial = true → u.recPartial = true

theorem txStep_recordsKept (m : AssertMode) (req : Bool) (i : SinkIn) (t : TxDomain) :
    t.RecordsKept (txStep m req i t) where
  discard h := by simp [txStep_recDiscard, h]
  underrun h := by simp [txStep_recUnderrun, h]
  unstable h := by simp [txStep_recUnstable, h]

theorem rxStep_recordsKept (m : AssertMode) (req : Bool) (x : RxIn) (r : RxDomain) :
    r.RecordsKept (rxStep m req x r) where
  overrun h := by simp [rxStep_recOverrun, h]
  short h := by simp [rxStep_recPartial, h]

theorem lineStep_tx_recordsKept (l : Line) (s : State) : s.tx.RecordsKept (lineStep l s).tx := by
  cases l with
  | tx i => exact txStep_recordsKept _ _ i s.tx
  | both i f => exact txStep_recordsKept _ _ i s.tx
  | host v => rw [lineStep, hostStep_frame]; exact ⟨id, id, id⟩
  | _ => exact ⟨id, id, id⟩

theorem lineStep_rx_recordsKept (l : Line) (s : State) : s.rx.RecordsKept (lineStep l s).rx := by
  cases l with
  | rx x => exact rxStep_recordsKept _ _ x s.rx
  | both i f => exact rxStep_recordsKept _ _ (f.inputs s) s.rx
  | host v => rw [lineStep, hostStep_frame]; exact ⟨id, id⟩
  | _ => exact ⟨id, id⟩

/-- Settles O57: a record after a tick is the old one or what the tick adds, and no other line writes one. -/
theorem recordsAreNeverCleared : Obligations.RecordsAreNeverCleared := by
  intro s t ht
  rcases step_cases ht with ⟨-, rfl⟩ | ⟨l, ls, -, rfl⟩
  · exact ⟨id, id, id, id, id⟩
  · obtain ⟨discard, underrun, unstable⟩ := lineStep_tx_recordsKept l (s.setStim ls)
    obtain ⟨overrun, short⟩ := lineStep_rx_recordsKept l (s.setStim ls)
    exact ⟨discard, underrun, unstable, overrun, short⟩

/-! No record is read -/

/-- The tx domain with its records cleared (rule R34). -/
def TxDomain.eraseRecords (t : TxDomain) : TxDomain :=
  { t with recDiscard := false, recUnderrun := false, recUnstable := false }

/-- The rx domain with its records cleared (rule R34). -/
def RxDomain.eraseRecords (r : RxDomain) : RxDomain := { r with recOverrun := false, recPartial := false }

/-- A tx tick reads no record (rule R34). -/
theorem txStep_eraseRecords (m : AssertMode) (req : Bool) (i : SinkIn) (t : TxDomain) :
    (txStep m req i t.eraseRecords).eraseRecords = (txStep m req i t).eraseRecords := by
  cases h : lastStage t.sync
  · rw [txStep_of_normal _ _ _ t h, txStep_of_normal _ _ _ t.eraseRecords h,
      load_tx_of_normal ((({ t with inp := i } : TxDomain).drive _).watch _) h,
      load_tx_of_normal ((({ t.eraseRecords with inp := i } : TxDomain).drive _).watch _) h]
    rfl
  · rw [txStep_of_reset _ _ _ t h, txStep_of_reset _ _ _ t.eraseRecords h]
    rfl

/-- An rx tick reads no record (rule R34). -/
theorem rxStep_eraseRecords (m : AssertMode) (req : Bool) (x : RxIn) (r : RxDomain) :
    (rxStep m req x r.eraseRecords).eraseRecords = (rxStep m req x r).eraseRecords := by
  cases h : lastStage r.sync
  · rw [rxStep_of_normal _ _ _ r h, rxStep_of_normal _ _ _ r.eraseRecords h,
      load_rx_of_normal (({ r with inp := x } : RxDomain).drive _) h,
      load_rx_of_normal (({ r.eraseRecords with inp := x } : RxDomain).drive _) h]
    rfl
  · rw [rxStep_of_reset _ _ _ r h, rxStep_of_reset _ _ _ r.eraseRecords h]
    rfl

theorem hostStep_eraseRecords (v : Bool) (s : State) : hostStep v s.eraseRecords = (hostStep v s).eraseRecords := by
  have par : s.eraseRecords.par = s.par := rfl
  unfold hostStep
  rw [par]
  split <;> rfl

/-- The rx inputs of a lock-step line read no record. -/
theorem inputs_eraseRecords (f : RxFeed) (s : State) : f.inputs s.eraseRecords = f.inputs s := by
  cases f <;> rfl

/-- A line's effect but for the records is that on the state with its records cleared (rule R34). -/
theorem lineStep_eraseRecords (l : Line) (s : State) :
    (lineStep l s.eraseRecords).eraseRecords = (lineStep l s).eraseRecords := by
  cases l with
  | tx i => exact congrArg (fun t => (s.setTx t).setRx s.rx.eraseRecords) (txStep_eraseRecords _ _ i s.tx)
  | rx x => exact congrArg (fun r => (s.setTx s.tx.eraseRecords).setRx r) (rxStep_eraseRecords _ _ x s.rx)
  | base => rfl
  | host v => rw [lineStep, hostStep_eraseRecords]; rfl
  | both i f =>
    rw [lineStep, lineStep, inputs_eraseRecords]
    exact congrArg₂ (fun t r => (s.setTx t).setRx r) (txStep_eraseRecords _ _ i s.tx)
      (rxStep_eraseRecords _ _ (f.inputs s) s.rx)

/-- Runs from states that agree but for the records end in such states. -/
theorem afterLines_eraseRecords_congr (ls : List Line) {s u : State} (h : u.eraseRecords = s.eraseRecords) :
    (afterLines ls u).eraseRecords = (afterLines ls s).eraseRecords := by
  induction ls generalizing s u with
  | nil => exact h
  | cons l ls ih =>
    apply ih
    calc (lineStep l u).eraseRecords
        = (lineStep l u.eraseRecords).eraseRecords := (lineStep_eraseRecords l u).symm
      _ = (lineStep l s.eraseRecords).eraseRecords := by rw [h]
      _ = (lineStep l s).eraseRecords := lineStep_eraseRecords l s

/-- Settles O58, by induction on the run: each line keeps agreement but for the records. -/
theorem recordsDoNotInfluenceRuns : Obligations.RecordsDoNotInfluenceRuns := by
  intro s ls
  have agree : (afterLines ls s.eraseRecords).eraseRecords = (afterLines ls s).eraseRecords :=
    afterLines_eraseRecords_congr ls rfl
  exact ⟨_, _, runLines_after ls s, runLines_after ls s.eraseRecords, congrArg (·.setStim []) agree⟩

end Sys2Proof.Machine
end

section
/-!
The transferred elements, the nibble register and the latches after a tick: the field lemmas of Laws/Tick.lean, continued. Then
the two channels: the handshake of rule R36 and the producer's duty of rule R37.
-/

namespace Sys2Proof.Machine

@[simp] theorem txRow_valid (q : TxFsm) (i : SinkIn) : (txRow q i).valid = i.valid := by cases q <;> rfl
@[simp] theorem txRow_sof (q : TxFsm) (i : SinkIn) : (txRow q i).sof = i.sof := by cases q <;> rfl
@[simp] theorem txRow_eof (q : TxFsm) (i : SinkIn) : (txRow q i).eof = i.eof := by cases q <;> rfl

section
variable (m : AssertMode) (req : Bool) (i : SinkIn) (x : RxIn) (t : TxDomain) (r : RxDomain)

/-- A tx tick transfers the offered element by the handshake, reset tick or not (rules R36, R67, R100). -/
theorem txStep_taken :
    (txStep m req i t).taken = transfer (i.valid && (txRow t.state i).ready) ⟨i.data, i.sof, i.eof⟩ t.taken := by
  cases h : lastStage t.sync
  · simp [txStep_of_normal _ _ _ _ h, TxDomain.load, TxDomain.watch, TxDomain.drive, h]
  · simp [txStep_of_reset _ _ _ _ h, TxDomain.forceIdle, TxDomain.watch, TxDomain.drive]

/-- Out of reset a tx tick loads its row's nibble, or a draw (rules R67, R68, R71 to R74). -/
theorem txStep_dataQ_of_normal (h : lastStage t.sync = false) :
    (txStep m req i t).dataQ = (txRow t.state i).nib.getD (Config.txDraw4 t.draws) := by
  simp [txStep_of_normal _ _ _ _ h, TxDomain.load, TxDomain.watch, TxDomain.drive, h]

/-- An rx tick transfers the element its row presents by the handshake, reset tick or not (rules R36, R81, R101). -/
theorem rxStep_given :
    (rxStep m req x r).given =
      transfer ((rxRow r x).valid && x.ready) ⟨r.hi ++ r.lo, r.sofPending, (rxRow r x).eof⟩ r.given := by
  cases h : lastStage r.sync
  · simp [rxStep_of_normal _ _ _ _ h, RxDomain.load, RxDomain.drive, h]
  · simp [rxStep_of_reset _ _ _ _ h, RxDomain.forceIdle, RxDomain.drive]

/-- The outputs of an rx tick, reset tick or not (rules R81, R101). -/
theorem rxStep_out :
    (rxStep m req x r).out =
      { valid := (rxRow r x).valid
        data := r.hi ++ r.lo
        sof := if (rxRow r x).valid then r.sofPending else Config.rxDraw1 r.draws
        eof := if (rxRow r x).valid then (rxRow r x).eof else Config.rxDraw1 (r.draws + 1)
        rst := lastStage r.sync } := by
  cases h : lastStage r.sync
  · simp [rxStep_of_normal _ _ _ _ h, RxDomain.load, RxDomain.drive, h]
  · simp [rxStep_of_reset _ _ _ _ h, RxDomain.forceIdle, RxDomain.drive, h]

/-- Out of reset an rx tick loads its row's latches (rules R82 to R86). -/
theorem rxStep_lo_of_normal (h : lastStage r.sync = false) : (rxStep m req x r).lo = (rxRow r x).lo := by
  simp [rxStep_of_normal _ _ _ _ h, RxDomain.load, RxDomain.drive, h]

theorem rxStep_hi_of_normal (h : lastStage r.sync = false) : (rxStep m req x r).hi = (rxRow r x).hi := by
  simp [rxStep_of_normal _ _ _ _ h, RxDomain.load, RxDomain.drive, h]

end

theorem transfer_eq_ite (b : Bool) (x : Element) (l : List Element) :
    transfer b x l = if b = true then l ++ [x] else l := rfl

/-- A tick breaks the duty of the tick before exactly when that one offered an element, was not ready and was not a reset tick,
and this one does not offer the same element (rule R37). -/
theorem breaksDuty_duty (rst v r w : Bool) (x y : Element) :
    breaksDuty (duty rst v r x) w y = (v && !r && !rst && !(w && y == x)) := by
  cases rst <;> cases v <;> cases r <;> simp [duty]

/-- Settles O35: the lists after a tick are the transfer of its element by the handshake. -/
theorem transferExactlyOnHandshake : Obligations.TransferExactlyOnHandshake := by
  refine ⟨fun s i => ⟨_, runLines_one _ s, ?sink, rfl⟩, fun s x => ⟨_, runLines_one _ s, ?source, rfl⟩⟩
  case sink =>
    simp only [lineStep, setStim_tx, setTx_tx, txStep_taken, txStep_out, transfer_eq_ite, Bool.and_eq_true]
  case source =>
    simp only [lineStep, setStim_rx, setRx_rx, rxStep_given, rxStep_out, transfer_eq_ite, Bool.and_eq_true]
    cases (rxRow s.rx x).valid <;> rfl

/-- Settles O36: the second tick compares with what the first left owed. -/
theorem producerDutyIsWatched : Obligations.ProducerDutyIsWatched := by
  refine fun s i j => ⟨_, _, runLines_one _ s, runLines_two _ _ s, ?_⟩
  simp only [lineStep, setStim_tx, setTx_tx, setTx_par, setTx_rstReq]
  rw [txStep_recUnstable _ _ j, txStep_offer, breaksDuty_duty, element_beq, txStep_out, resetTick_tx]
  simp only [Bool.and_assoc]

/-- A host write and a toggle touch no common part (rules R92, R95). -/
theorem hostStep_setBase (v : Bool) (s : State) (b : BaseDomain) : hostStep v (s.setBase b) = (hostStep v s).setBase b := by
  by_cases h : s.par.assertMode = .async ∧ v = true <;> simp only [hostStep, setBase_par, h] <;> rfl

theorem hostStep_base (v : Bool) (s : State) : (hostStep v s).base = s.base := by
  rw [hostStep_frame]

/-- Settles O51: each agent reads and writes its own part, so the updates commute (setRx_setTx, setBase_setTx, setBase_setRx). -/
theorem domainsAreIndependent : Obligations.DomainsAreIndependent := by
  intro s i x v
  refine ⟨?txRx, ?txBase, ?rxBase, ?hostBase, ?both⟩
  case txRx => rw [runLines_two, runLines_two]; rfl
  case txBase => rw [runLines_two, runLines_two]; rfl
  case rxBase => rw [runLines_two, runLines_two]; rfl
  case hostBase =>
    rw [runLines_two, runLines_two]
    simp only [lineStep, hostStep_setBase, hostStep_base]
  case both => rw [runLines_one, runLines_two, lineStep_both]; rfl

end Sys2Proof.Machine
end

section
/-!
What a released receiver transfers to a ready consumer (rules R38, R81 to R89).
-/

namespace Sys2Proof.Machine

theorem frameScan_append (inside : Bool) (xs ys : List Element) :
    frameScan inside (xs ++ ys) = (frameScan inside xs).bind (frameScan · ys) := by
  induction xs generalizing inside with
  | nil => rfl
  | cons x xs ih => by_cases h : x.sof = !inside <;> simp [frameScan, h, ih]

/-- Whether the receiver is inside a frame of which it has presented an element (rule R89). -/
def RxDomain.frameOpen (r : RxDomain) : Bool := decide (r.state ≠ .idle) && !r.sofPending

/-- A line without a host write and with a ready consumer leaves the rx domain alone or is an rx tick with a ready consumer. -/
theorem lineStep_rx_ready {l : Line} (hq : l.isHost = false) (hc : l.consumerReady = true) (s : State) :
    (lineStep l s).rx = s.rx ∨
      ∃ x : RxIn, x.ready = true ∧ (lineStep l s).rx = rxStep s.par.assertMode s.rstReq x s.rx := by
  cases l with
  | rx x => exact .inr ⟨x, hc, rfl⟩
  | both i f => cases f <;> exact .inr ⟨_, hc, rfl⟩
  | host v => cases hq
  | _ => exact .inl rfl

/-- A released receiver stays released while the host is quiet (rule R103). -/
theorem released_rx_lineStep {l : Line} (hq : l.isHost = false) {s : State} (h : s.Released .rx) :
    (lineStep l s).Released .rx := by
  obtain ⟨hreq, hsync⟩ := h
  refine ⟨(lineStep_rstReq hq s).trans hreq, ?_⟩
  rcases lineStep_rx l s hq with ⟨same, -⟩ | ⟨⟨x, tick⟩, -⟩
  · rwa [stages_rx, same]
  · rw [stages_rx, tick, hreq, rxStep_sync, nextStages_released (l := s.rx.sync) _ hsync]
    exact hsync

/-- A tick of a released receiver with a ready consumer transfers nothing or one element, which continues the frame that is open
or starts one where none is: only LOAD_LOW presents, with sof exactly if it has presented nothing of the frame (rule R89). -/
theorem rxStep_frameScan (m : AssertMode) {r : RxDomain} (hsync : ∀ b ∈ r.sync, b = false) {x : RxIn} (hx : x.ready = true) :
    ∃ xs, (rxStep m false x r).given = r.given ++ xs ∧
      frameScan r.frameOpen xs = some (rxStep m false x r).frameOpen := by
  have normal : lastStage r.sync = false := lastStage_of_all_false hsync
  simp only [rxStep_given, RxDomain.frameOpen, rxStep_state, rxStep_sofPending_of_normal _ _ _ _ normal, normal]
  cases hq : r.state with
  | idle => exact ⟨[], by simp [rxRow, hq], by simp [rxRow, hq, frameScan]⟩
  | loadHigh => exact ⟨[], by simp [rxRow, hq], by simp [rxRow, hq, frameScan]⟩
  | loadLow =>
    refine ⟨[⟨r.hi ++ r.lo, r.sofPending, !x.dv⟩], by simp [rxRow, hq, hx], ?_⟩
    cases hd : x.dv <;> simp [rxRow, hq, hd, frameScan]

/-- Over quiet lines with a ready consumer a released receiver transfers elements that lead from the frame open before to the
frame open after. -/
theorem afterLines_frameScan (ls : List Line) {s : State} (h : s.Released .rx) (hq : HostQuiet ls)
    (hc : ∀ l ∈ ls, l.consumerReady = true) :
    ∃ xs, (afterLines ls s).rx.given = s.rx.given ++ xs ∧
      frameScan s.rx.frameOpen xs = some (afterLines ls s).rx.frameOpen := by
  induction ls generalizing s with
  | nil => exact ⟨[], (List.append_nil _).symm, rfl⟩
  | cons l ls ih =>
    have hl : l.isHost = false := hostQuiet_head hq
    obtain ⟨ys, given, scan⟩ := ih (released_rx_lineStep hl h) (hostQuiet_tail hq) (fun a ha => hc a (List.mem_cons_of_mem l ha))
    rw [afterLines_cons]
    rcases lineStep_rx_ready hl (hc l List.mem_cons_self) s with same | ⟨x, hx, tick⟩
    · rw [same] at given scan
      exact ⟨ys, given, scan⟩
    · obtain ⟨hreq, hsync⟩ := h
      obtain ⟨xs, tickGiven, tickScan⟩ := rxStep_frameScan s.par.assertMode hsync hx
      rw [tick, hreq] at given scan
      exact ⟨xs ++ ys, by rw [given, tickGiven, List.append_assoc],
        by rw [frameScan_append, tickScan, Option.bind_some, scan]⟩

/-- Settles O45: in IDLE no frame is open, and the run leads from there to the frame open after it. -/
theorem receivedFramesAreWellFormed : Obligations.ReceivedFramesAreWellFormed := by
  intro s ls h hidle hq hc
  obtain ⟨xs, given, scan⟩ := afterLines_frameScan ls h hq hc
  have closed : s.rx.frameOpen = false := by simp [RxDomain.frameOpen, hidle]
  rw [closed] at scan
  exact ⟨_, xs, runLines_after ls s, given, scan⟩

end Sys2Proof.Machine
end

section
/-!
A released transmitter under a producer that keeps its duty: what a tick, a byte, a frame and a list of frames take from the sink
and leave on the pins (rules R38, R39, R65 to R79).
-/

namespace Sys2Proof.Machine

/-- The element a tx line offers (rule R35). -/
def offered (i : SinkIn) : Element := ⟨i.data, i.sof, i.eof⟩

/-- The tx pins as a receiver in lock-step with a ready consumer reads them (D23). -/
def TxDomain.pins (t : TxDomain) : RxIn := { dv := t.enQ, data := t.dataQ }

/-- The tx domain after these ticks while no request stands. -/
def txRun (m : AssertMode) (is : List SinkIn) (t : TxDomain) : TxDomain := is.foldl (fun t i => txStep m false i t) t

/-- The tx pins after each of these ticks, the pins during the next one (rule R78). -/
def wire (m : AssertMode) : List SinkIn → TxDomain → List RxIn
  | [], _ => []
  | i :: is, t => (txStep m false i t).pins :: wire m is (txStep m false i t)

/-- Out of reset in `q`, owing `o` (rules R37, R103). -/
structure TxDomain.At (q : TxFsm) (o : Option Element) (t : TxDomain) : Prop where
  released : ∀ b ∈ t.sync, b = false
  state : t.state = q
  owes : t.offer = o

/-- Over the ticks `is` the domain takes `xs` from the sink, leaves `ns` on the pins, and sets no record. -/
structure TxDomain.Carries (m : AssertMode) (is : List SinkIn) (xs : List Element) (ns : List RxIn) (t : TxDomain) : Prop where
  taken : (txRun m is t).taken = t.taken ++ xs
  shown : wire m is t = ns
  discard : (txRun m is t).recDiscard = t.recDiscard
  underrun : (txRun m is t).recUnderrun = t.recUnderrun
  unstable : (txRun m is t).recUnstable = t.recUnstable

/-- Frames on the pins: before each frame's nibbles, one tick without enable (rules R77, R79). -/
inductive OnWire : List (List Byte) → List RxIn → Prop where
  | nil : OnWire [] []
  | cons {gap : RxIn} {bs : List Byte} {fs : List (List Byte)} {ns : List RxIn} (ready : gap.ready = true)
      (quiet : gap.dv = false) (rest : OnWire fs ns) : OnWire (bs :: fs) (gap :: byteInputs bs ++ ns)

section
variable {m : AssertMode} {t : TxDomain} {q : TxFsm} {o : Option Element}

@[simp] theorem txRun_nil : txRun m [] t = t := rfl
@[simp] theorem txRun_cons (i : SinkIn) (is : List SinkIn) : txRun m (i :: is) t = txRun m is (txStep m false i t) := rfl

theorem txRun_append (is js : List SinkIn) : txRun m (is ++ js) t = txRun m js (txRun m is t) := List.foldl_append

theorem wire_append (is js : List SinkIn) : wire m (is ++ js) t = wire m is t ++ wire m js (txRun m is t) := by
  induction is generalizing t with
  | nil => rfl
  | cons i is ih => rw [List.cons_append, wire, wire, ih, txRun_cons, List.cons_append]

theorem TxDomain.Carries.nil : t.Carries m [] [] [] := ⟨(List.append_nil _).symm, rfl, rfl, rfl, rfl⟩

theorem TxDomain.Carries.append {is js : List SinkIn} {xs ys : List Element} {ns ms : List RxIn} (h : t.Carries m is xs ns)
    (k : (txRun m is t).Carries m js ys ms) : t.Carries m (is ++ js) (xs ++ ys) (ns ++ ms) where
  taken := by rw [txRun_append, k.taken, h.taken, List.append_assoc]
  shown := by rw [wire_append, h.shown, k.shown]
  discard := by rw [txRun_append, k.discard, h.discard]
  underrun := by rw [txRun_append, k.underrun, h.underrun]
  unstable := by rw [txRun_append, k.unstable, h.unstable]

/-- A tick out of reset goes to its row's next state and owes what it offered and did not take. -/
theorem TxDomain.At.tick (h : t.At q o) (i : SinkIn) :
    (txStep m false i t).At (txRow q i).next (duty false i.valid (txRow q i).ready (offered i)) := by
  obtain ⟨released, rfl, -⟩ := h
  have normal : lastStage t.sync = false := lastStage_of_all_false released
  refine ⟨?_, by rw [txStep_state, normal]; rfl, by rw [txStep_offer, normal]; rfl⟩
  rwa [txStep_sync, nextStages_released m released]

/-- A tick out of reset loads its row's enable (rule R67). -/
theorem TxDomain.At.tick_enQ (h : t.At q o) (i : SinkIn) : (txStep m false i t).enQ = (txRow q i).en := by
  obtain ⟨released, rfl, -⟩ := h
  rw [txStep_enQ, lastStage_of_all_false released]
  rfl

/-- A tick whose row sets no record and whose input keeps the duty takes its element by the handshake and leaves its row's enable
and nibble on the pins. -/
theorem TxDomain.At.carries_tick (h : t.At q o) (i : SinkIn) (discard : (txRow q i).discard = false)
    (underrun : (txRow q i).underrun = false) (keeps : breaksDuty o i.valid (offered i) = false) :
    t.Carries m [i] (if i.valid && (txRow q i).ready then [offered i] else [])
      [{ dv := (txRow q i).en, data := (txRow q i).nib.getD (Config.txDraw4 t.draws) }] := by
  refine ⟨?taken, ?shown, ?discard, ?underrun, ?unstable⟩
  case taken =>
    rw [txRun_cons, txRun_nil, txStep_taken, h.state]
    cases i.valid && (txRow q i).ready
    · exact (List.append_nil _).symm
    · rfl
  case shown =>
    rw [wire, wire, TxDomain.pins, h.tick_enQ, txStep_dataQ_of_normal _ _ _ _ (lastStage_of_all_false h.released), h.state]
  case discard => simp [txStep_recDiscard, h.state, discard]
  case underrun => simp [txStep_recUnderrun, h.state, underrun]
  case unstable =>
    have kept : breaksDuty o i.valid ⟨i.data, i.sof, i.eof⟩ = false := keeps
    simp [txStep_recUnstable, h.owes, kept]

/-- An idle tick in IDLE takes nothing and leaves the enable low (rule R68). -/
theorem TxDomain.At.carries_idle (h : t.At .idle none) :
    t.Carries m [{}] [] [{ dv := false, data := Config.txDraw4 t.draws }] ∧ (txRun m [{}] t).At .idle none :=
  ⟨h.carries_tick {} rfl rfl rfl, h.tick {}⟩

/-- The start of a frame takes nothing yet, leaves the enable low, and owes the element (rule R70). -/
theorem TxDomain.At.carries_start (h : t.At .idle none) (b : Byte) (e : Bool) :
    t.Carries m [⟨true, b, true, e⟩] [] [{ dv := false, data := Config.txDraw4 t.draws }] ∧
      (txRun m [⟨true, b, true, e⟩] t).At .sendLow (some ⟨b, true, e⟩) :=
  ⟨h.carries_tick ⟨true, b, true, e⟩ rfl rfl rfl, h.tick ⟨true, b, true, e⟩⟩

/-- A byte is sent in two ticks, low nibble first, and taken in the second (rules R71 to R73). -/
theorem TxDomain.At.carries_byte {b : Byte} {f e : Bool} (h : t.At .sendLow o) (keeps : breaksDuty o true ⟨b, f, e⟩ = false) :
    t.Carries m [⟨true, b, f, e⟩, ⟨true, b, f, e⟩] [⟨b, f, e⟩]
        [{ dv := true, data := lowNibble b }, { dv := true, data := highNibble b }] ∧
      (txRun m [⟨true, b, f, e⟩, ⟨true, b, f, e⟩] t).At (if e then .idle else .sendLow) none := by
  have low : (txRun m [⟨true, b, f, e⟩] t).At .sendHigh (some ⟨b, f, e⟩) := h.tick ⟨true, b, f, e⟩
  have kept : breaksDuty (some ⟨b, f, e⟩) true ⟨b, f, e⟩ = false := by simp
  exact ⟨(h.carries_tick ⟨true, b, f, e⟩ rfl rfl keeps).append (low.carries_tick ⟨true, b, f, e⟩ rfl rfl kept),
    low.tick ⟨true, b, f, e⟩⟩

/-- The bytes of a frame still to send are taken in order, and the last one, which carries eof, ends in IDLE (rules R72, R73). -/
theorem TxDomain.At.carries_frameTail (bs : List Byte) {t : TxDomain} (h : t.At (if bs.isEmpty then .idle else .sendLow) none) :
    t.Carries m (frameTail bs) (frameOfTail bs) (byteInputs bs) ∧ (txRun m (frameTail bs) t).At .idle none := by
  induction bs generalizing t with
  | nil => exact ⟨.nil, h⟩
  | cons b bs ih =>
    obtain ⟨byte, after⟩ := h.carries_byte (m := m) (b := b) (f := false) (e := bs.isEmpty) rfl
    obtain ⟨tail, idle⟩ := ih after
    exact ⟨byte.append tail, idle⟩

/-- A frame is taken whole from IDLE to IDLE (rules R77, R79). -/
theorem TxDomain.At.carries_frame {bs : List Byte} (hbs : bs ≠ []) (h : t.At .idle none) :
    t.Carries m (frameInputs bs) (frameOf bs) ({ dv := false, data := Config.txDraw4 t.draws } :: byteInputs bs) ∧
      (txRun m (frameInputs bs) t).At .idle none := by
  obtain ⟨b, bs, rfl⟩ := List.exists_cons_of_ne_nil hbs
  obtain ⟨start, owing⟩ := h.carries_start (m := m) b bs.isEmpty
  obtain ⟨byte, after⟩ := owing.carries_byte (m := m) (b := b) (f := true) (e := bs.isEmpty) (by simp)
  obtain ⟨tail, idle⟩ := TxDomain.At.carries_frameTail bs after
  exact ⟨(start.append byte).append tail, idle⟩

/-- Frames sent one right after another are taken whole and in order, and stand so on the pins (rules R45, R77). -/
theorem TxDomain.At.carries_frames {fs : List (List Byte)} (hfs : ∀ bs ∈ fs, bs ≠ []) {t : TxDomain} (h : t.At .idle none) :
    (∃ ns, OnWire fs ns ∧ t.Carries m (fs.flatMap frameInputs) (fs.flatMap frameOf) ns) ∧
      (txRun m (fs.flatMap frameInputs) t).At .idle none := by
  induction fs generalizing t with
  | nil => exact ⟨⟨[], .nil, .nil⟩, h⟩
  | cons bs fs ih =>
    obtain ⟨frame, between⟩ := h.carries_frame (m := m) (hfs bs List.mem_cons_self)
    obtain ⟨⟨ns, onWire, frames⟩, idle⟩ := ih (fun a ha => hfs a (List.mem_cons_of_mem bs ha)) between
    refine ⟨⟨_, .cons rfl rfl onWire, frame.append frames⟩, ?_⟩
    rwa [List.flatMap_cons, txRun_append]

end

/-- Running tx lines while no request stands is the run of the tx domain. -/
theorem afterLines_map_tx (is : List SinkIn) {s : State} (h : s.rstReq = false) :
    afterLines (is.map Line.tx) s = s.setTx (txRun s.par.assertMode is s.tx) := by
  rw [afterLines, foldl_tx, h]; rfl

theorem flatMap_txframe (fs : List (List Byte)) : fs.flatMap txframe = (fs.flatMap frameInputs).map Line.tx :=
  List.map_flatMap.symm

/-- Frames sent one right after another take 2N + 1 lines each (rule R77). -/
theorem length_flatMap_txframe {fs : List (List Byte)} (hfs : ∀ bs ∈ fs, bs ≠ []) :
    (fs.flatMap txframe).length = (fs.map (fun bs => 2 * bs.length + 1)).sum := by
  rw [List.length_flatMap]
  congr 1
  exact List.map_congr_left fun bs hbs => by rw [txframe, List.length_map, frameInputs_length (hfs bs hbs)]

/-- Settles O41, by induction on the frames: each starts and ends in IDLE with nothing owed. -/
theorem framesAreTakenInOrder : Obligations.FramesAreTakenInOrder := by
  intro s fs ⟨hreq, released⟩ hidle howes hfs
  obtain ⟨⟨ns, -, frames⟩, idle⟩ :=
    TxDomain.At.carries_frames (m := s.par.assertMode) hfs (t := s.tx) ⟨released, hidle, howes⟩
  refine ⟨_, runLines_after _ s, length_flatMap_txframe hfs, ?_⟩
  rw [flatMap_txframe, afterLines_map_tx _ hreq]
  exact ⟨frames.taken, idle.state, frames.discard, frames.underrun, frames.unstable⟩

end Sys2Proof.Machine
end

section
/-!
Frames through the loopback: a released receiver turns the pins a transmitter leaves back into the frames (rules R38, R39, R81 to
R90; D23).
-/

namespace Sys2Proof.Machine

/-- The rx domain after these ticks while no request stands. -/
def rxRun (m : AssertMode) (xs : List RxIn) (r : RxDomain) : RxDomain := xs.foldl (fun r x => rxStep m false x r) r

/-- What a ready consumer has after a tick in which the byte of LOAD_LOW, if the receiver holds one, is presented with this eof. -/
def RxDomain.presented (eof : Bool) (r : RxDomain) : List Element :=
  if r.state = .loadLow then r.given ++ [⟨r.hi ++ r.lo, r.sofPending, eof⟩] else r.given

/-- From `r` to `u` no record is set, and the chain, which holds no 1, stays as it is. -/
structure RxDomain.CleanTo (r u : RxDomain) : Prop where
  released : ∀ b ∈ r.sync, b = false
  sync : u.sync = r.sync
  overrun : u.recOverrun = r.recOverrun
  short : u.recPartial = r.recPartial

theorem RxDomain.CleanTo.refl {r : RxDomain} (h : ∀ b ∈ r.sync, b = false) : r.CleanTo r := ⟨h, rfl, rfl, rfl⟩

theorem RxDomain.CleanTo.trans {r u v : RxDomain} (h : r.CleanTo u) (k : u.CleanTo v) : r.CleanTo v :=
  ⟨h.released, k.sync.trans h.sync, k.overrun.trans h.overrun, k.short.trans h.short⟩

theorem RxDomain.CleanTo.released_after {r u : RxDomain} (h : r.CleanTo u) : ∀ b ∈ u.sync, b = false := by
  rw [h.sync]; exact h.released

/-- The two nibbles of a byte, joined (rules R39, R62). -/
theorem highNibble_append_lowNibble (b : Byte) : highNibble b ++ lowNibble b = b := by
  rw [highNibble, lowNibble, BitVec.extractLsb'_append_extractLsb'_eq_extractLsb' (by rfl)]
  exact BitVec.extractLsb'_eq_self

section
variable {m : AssertMode} {r : RxDomain}

theorem rxRun_append (xs ys : List RxIn) : rxRun m (xs ++ ys) r = rxRun m ys (rxRun m xs r) := List.foldl_append

/-- Only LOAD_LOW presents, with eof exactly if there is no further nibble (rules R85, R86). -/
theorem rxStep_given_of_ready {x : RxIn} (hx : x.ready = true) :
    (rxStep m false x r).given = r.presented (!x.dv) := by
  rw [rxStep_given, RxDomain.presented]
  cases hq : r.state <;> simp [rxRow, hq, hx]

/-- A released tick sets no record if the consumer is ready and no high nibble is missing (rules R84, R87). -/
theorem rxStep_cleanTo (released : ∀ b ∈ r.sync, b = false) {x : RxIn} (hx : x.ready = true)
    (whole : r.state = .loadHigh → x.dv = true) : r.CleanTo (rxStep m false x r) := by
  refine ⟨released, by rw [rxStep_sync, nextStages_released m released], by simp [rxStep_recOverrun, hx], ?_⟩
  rw [rxStep_recPartial]
  cases hq : r.state with
  | loadHigh => simp [rxRow, hq, whole hq]
  | _ => simp [rxRow, hq]

/-- A tick without a nibble closes the frame (rules R82, R86). -/
theorem rxStep_gap (released : ∀ b ∈ r.sync, b = false) (hq : r.state ≠ .loadHigh) {x : RxIn} (hx : x.ready = true)
    (hd : x.dv = false) :
    (rxStep m false x r).state = .idle ∧ (rxStep m false x r).given = r.presented true ∧ r.CleanTo (rxStep m false x r) := by
  refine ⟨?_, by rw [rxStep_given_of_ready hx, hd]; rfl, rxStep_cleanTo released hx fun h => absurd h hq⟩
  rw [rxStep_state, lastStage_of_all_false released]
  cases hs : r.state with
  | loadHigh => exact absurd hs hq
  | _ => simp [rxRow, hs, hd]

/-- A low nibble is captured, sof pending exactly if it is the first of a frame; the byte before is presented without eof (rules
R83, R85, R89). -/
theorem rxStep_lowNibble (released : ∀ b ∈ r.sync, b = false) (hq : r.state ≠ .loadHigh) (n : Nibble) {u : RxDomain}
    (hu : u = rxStep m false { dv := true, data := n } r) :
    u.state = .loadHigh ∧ u.lo = n ∧ u.sofPending = decide (r.state = .idle) ∧ u.given = r.presented false ∧ r.CleanTo u := by
  have normal : lastStage r.sync = false := lastStage_of_all_false released
  rw [hu, rxStep_state, rxStep_lo_of_normal _ _ _ _ normal, rxStep_sofPending_of_normal _ _ _ _ normal,
    rxStep_given_of_ready rfl, normal]
  have clean := rxStep_cleanTo (m := m) released (x := { dv := true, data := n }) rfl fun _ => rfl
  cases hs : r.state with
  | loadHigh => exact absurd hs hq
  | _ => exact ⟨by simp [rxRow, hs], by simp [rxRow, hs], by simp [rxRow, hs], rfl, clean⟩

/-- A high nibble completes the byte that the next tick presents (rule R84). -/
theorem rxStep_highNibble (released : ∀ b ∈ r.sync, b = false) (hq : r.state = .loadHigh) (n : Nibble) {u : RxDomain}
    (hu : u = rxStep m false { dv := true, data := n } r) :
    u.state = .loadLow ∧ (∀ eof, u.presented eof = r.given ++ [⟨n ++ r.lo, r.sofPending, eof⟩]) ∧ r.CleanTo u := by
  have normal : lastStage r.sync = false := lastStage_of_all_false released
  have state : u.state = .loadLow := by rw [hu, rxStep_state, normal]; simp [rxRow, hq]
  refine ⟨state, fun eof => ?_, hu ▸ rxStep_cleanTo released rfl fun _ => rfl⟩
  rw [RxDomain.presented, if_pos state, hu, rxStep_hi_of_normal _ _ _ _ normal, rxStep_lo_of_normal _ _ _ _ normal,
    rxStep_sofPending_of_normal _ _ _ _ normal, rxStep_given_of_ready rfl]
  simp [rxRow, hq, RxDomain.presented]

/-- A byte's two nibbles make it the element that the next tick presents, with sof exactly if it is the first of a frame; the
byte before is presented without eof (rules R83 to R85, R89). -/
theorem rxRun_byte (released : ∀ b ∈ r.sync, b = false) (hq : r.state ≠ .loadHigh) (b : Byte) {u : RxDomain}
    (hu : u = rxRun m [{ dv := true, data := lowNibble b }, { dv := true, data := highNibble b }] r) :
    u.state = .loadLow ∧ (∀ eof, u.presented eof = r.presented false ++ [⟨b, decide (r.state = .idle), eof⟩]) ∧
      r.CleanTo u := by
  obtain ⟨state, lo, sof, given, clean⟩ := rxStep_lowNibble (m := m) released hq (lowNibble b) rfl
  obtain ⟨state', presented, clean'⟩ := rxStep_highNibble clean.released_after state (highNibble b) hu
  refine ⟨state', fun eof => ?_, clean.trans clean'⟩
  rw [presented, given, lo, sof, highNibble_append_lowNibble]

/-- The bytes of a frame after its first are presented one after the other, eof on the last alone (rules R85, R86). -/
theorem rxRun_frameTail (bs : List Byte) {r : RxDomain} (released : ∀ b ∈ r.sync, b = false) (hq : r.state = .loadLow) :
    (rxRun m (byteInputs bs) r).state = .loadLow ∧
      (rxRun m (byteInputs bs) r).presented true = r.presented bs.isEmpty ++ frameOfTail bs ∧
      r.CleanTo (rxRun m (byteInputs bs) r) := by
  induction bs generalizing r with
  | nil => exact ⟨hq, (List.append_nil _).symm, .refl released⟩
  | cons b bs ih =>
    obtain ⟨low, presented, clean⟩ := rxRun_byte (m := m) released (by simp [hq]) b rfl
    obtain ⟨state, tail, clean'⟩ := ih clean.released_after low
    refine ⟨state, tail.trans ?_, clean.trans clean'⟩
    rw [presented, hq, List.append_assoc]
    rfl

/-- After a tick without a nibble, which closes the frame before, a frame's nibbles are presented as that frame (rules R38, R88,
R89). -/
theorem rxRun_frame (released : ∀ b ∈ r.sync, b = false) (hq : r.state ≠ .loadHigh) {gap : RxIn} (hx : gap.ready = true)
    (hd : gap.dv = false) {bs : List Byte} (hbs : bs ≠ []) :
    (rxRun m (gap :: byteInputs bs) r).state = .loadLow ∧
      (rxRun m (gap :: byteInputs bs) r).presented true = r.presented true ++ frameOf bs ∧
      r.CleanTo (rxRun m (gap :: byteInputs bs) r) := by
  obtain ⟨b, bs, rfl⟩ := List.exists_cons_of_ne_nil hbs
  obtain ⟨idle, given, clean⟩ := rxStep_gap (m := m) released hq hx hd
  obtain ⟨low, presented, clean'⟩ := rxRun_byte (m := m) clean.released_after (by simp [idle]) b rfl
  obtain ⟨state, tail, clean''⟩ := rxRun_frameTail (m := m) bs clean'.released_after low
  refine ⟨state, tail.trans ?_, (clean.trans clean').trans clean''⟩
  rw [presented, idle, RxDomain.presented, if_neg (by simp [idle]), given, List.append_assoc]
  rfl

/-- Frames on the pins come out of the source as they are (rules R38, R88, R89). -/
theorem rxRun_onWire {fs : List (List Byte)} {ns : List RxIn} (h : OnWire fs ns) (hfs : ∀ bs ∈ fs, bs ≠ []) {r : RxDomain}
    (released : ∀ b ∈ r.sync, b = false) (hq : r.state ≠ .loadHigh) :
    (rxRun m ns r).state ≠ .loadHigh ∧ (rxRun m ns r).presented true = r.presented true ++ fs.flatMap frameOf ∧
      r.CleanTo (rxRun m ns r) := by
  induction h generalizing r with
  | nil => exact ⟨hq, (List.append_nil _).symm, .refl released⟩
  | @cons gap bs fs ns ready quiet rest ih =>
    obtain ⟨low, frame, clean⟩ := rxRun_frame (m := m) released hq ready quiet (hfs bs List.mem_cons_self)
    obtain ⟨state, frames, clean'⟩ := ih (fun a ha => hfs a (List.mem_cons_of_mem bs ha)) clean.released_after (by simp [low])
    rw [rxRun_append]
    refine ⟨state, ?_, clean.trans clean'⟩
    rw [frames, frame, List.append_assoc, List.flatMap_cons]

/-- Between two ticks without a nibble, frames on the pins come out whole, from IDLE to IDLE. -/
theorem rxRun_onWire_closed {fs : List (List Byte)} {ns : List RxIn} (h : OnWire fs ns) (hfs : ∀ bs ∈ fs, bs ≠ [])
    (released : ∀ b ∈ r.sync, b = false) (hq : r.state = .idle) {before after : RxIn} (hb : before.ready = true)
    (hbd : before.dv = false) (ha : after.ready = true) (had : after.dv = false) :
    (rxRun m (before :: (ns ++ [after])) r).state = .idle ∧
      (rxRun m (before :: (ns ++ [after])) r).given = r.given ++ fs.flatMap frameOf ∧
      r.CleanTo (rxRun m (before :: (ns ++ [after])) r) := by
  obtain ⟨idle, given, clean⟩ := rxStep_gap (m := m) released (by simp [hq]) hb hbd
  obtain ⟨low, frames, clean'⟩ := rxRun_onWire (m := m) h hfs clean.released_after (by simp [idle])
  obtain ⟨idle', given', clean''⟩ := rxStep_gap (m := m) clean'.released_after low ha had
  rw [← List.cons_append, rxRun_append]
  refine ⟨idle', given'.trans (frames.trans ?_), (clean.trans clean').trans clean''⟩
  rw [RxDomain.presented, if_neg (by simp [idle]), given, RxDomain.presented, if_neg (by simp [hq])]

end

/-- In lock-step the receiver reads in each tick what the transmitter left on the pins the tick before (D23, rule R78). -/
theorem afterLines_loopback (is : List SinkIn) (j : SinkIn) {s : State} (h : s.rstReq = false) :
    afterLines (loopback (is ++ [j])) s =
      (s.setTx (txRun s.par.assertMode (is ++ [j]) s.tx)).setRx
        (rxRun s.par.assertMode (s.tx.pins :: wire s.par.assertMode is s.tx) s.rx) := by
  induction is generalizing s with
  | nil => simp only [loopback, List.nil_append, List.map_cons, List.map_nil, afterLines_cons, lineStep, h]; rfl
  | cons i is ih =>
    have first : lineStep (.both i (.loop true)) s =
        (s.setTx (txStep s.par.assertMode false i s.tx)).setRx (rxStep s.par.assertMode false s.tx.pins s.rx) := by
      rw [lineStep, h]; rfl
    rw [List.cons_append, loopback, List.map_cons, afterLines_cons, first]
    exact ih h

/-- Settles O48: the transmitter leaves the frames on the pins, the receiver reads them one tick later, and the two idle ticks
close the last one. -/
theorem loopbackReproducesFrames : Obligations.LoopbackReproducesFrames := by
  rintro s fs ⟨hreq, txReleased⟩ ⟨-, rxReleased⟩ txIdle enLow owes rxIdle ⟨discard, underrun, unstable, overrun, short⟩ hfs
  obtain ⟨⟨ns, onWire, frames⟩, sent⟩ :=
    TxDomain.At.carries_frames (m := s.par.assertMode) hfs (t := s.tx) ⟨txReleased, txIdle, owes⟩
  obtain ⟨idleTick, waiting⟩ := sent.carries_idle (m := s.par.assertMode)
  rw [← txRun_append] at waiting
  obtain ⟨idleTick', rest⟩ := waiting.carries_idle (m := s.par.assertMode)
  have read := frames.append idleTick
  obtain ⟨taken, -, keptDiscard, keptUnderrun, keptUnstable⟩ := read.append idleTick'
  obtain ⟨rxState, given, clean⟩ :=
    rxRun_onWire_closed (m := s.par.assertMode) onWire hfs rxReleased rxIdle (before := s.tx.pins) rfl enLow
      (after := { dv := false, data := Config.txDraw4 (txRun s.par.assertMode (fs.flatMap frameInputs) s.tx).draws }) rfl rfl
  rw [← read.shown] at rxState given clean
  refine ⟨_, runLines_after _ s, ?_⟩
  rw [List.append_cons, afterLines_loopback _ _ hreq]
  refine ⟨?taken, given, ?state, rxState, ?enQ, keptDiscard.trans discard, keptUnderrun.trans underrun,
    keptUnstable.trans unstable, clean.overrun.trans overrun, clean.short.trans short⟩
  case taken => rwa [List.append_nil, List.append_nil] at taken
  case state => rw [setStim_tx, setRx_tx, setTx_tx, txRun_append]; exact rest.state
  case enQ => rw [setStim_tx, setRx_tx, setTx_tx, txRun_append]; exact waiting.tick_enQ {}

end Sys2Proof.Machine
end

section
/-!
The stimulus and element words of rule R66: a word is its fields side by side, so cutting a word into fields and joining them
gives it back, and two values with one word agree field by field.
-/

namespace Sys2Proof

/-- Words of the same two widths are joined without loss. -/
theorem append_eq_append_iff {m n : Nat} {x x' : BitVec m} {y y' : BitVec n} :
    x ++ y = x' ++ y' ↔ x = x' ∧ y = y' := by
  refine ⟨fun h => ⟨?_, ?_⟩, fun ⟨hx, hy⟩ => by rw [hx, hy]⟩
  · simpa only [BitVec.extractLsb'_append_eq_left] using congrArg (BitVec.extractLsb' n m) h
  · simpa only [BitVec.extractLsb'_append_eq_right] using congrArg (BitVec.extractLsb' 0 n) h

/-- Two flags in front of a field, the common shape of the words of R66. -/
theorem flags_append_inj {n : Nat} {a b a' b' : Bool} {x x' : BitVec n}
    (h : BitVec.ofBool a ++ BitVec.ofBool b ++ x = BitVec.ofBool a' ++ BitVec.ofBool b' ++ x') :
    a = a' ∧ b = b' ∧ x = x' := by
  simpa only [append_eq_append_iff, BitVec.ofBool_eq_iff_eq, and_assoc] using h

/-- A flag is cut out of a word as the field of its one bit. -/
theorem ofBool_getElem {n i : Nat} (w : BitVec n) (h : i < n) : BitVec.ofBool w[i] = w.extractLsb' i 1 := by
  ext j hj
  simp [BitVec.getElem_extractLsb', Nat.lt_one_iff.1 hj, BitVec.getLsbD_eq_getElem h]

theorem SinkIn.word_injective {i j : SinkIn} (h : i.word = j.word) : i = j := by
  obtain ⟨flags, hd⟩ := append_eq_append_iff.1 h
  obtain ⟨hv, hf, he⟩ := flags_append_inj flags
  cases i
  cases j
  simp_all only [BitVec.ofBool_eq_iff_eq]

theorem RxIn.word_injective {i j : RxIn} (h : i.word = j.word) : i = j := by
  obtain ⟨hr, hdv, hd⟩ := flags_append_inj h
  cases i
  cases j
  simp_all only

theorem Element.word_injective {x y : Element} (h : x.word = y.word) : x = y := by
  obtain ⟨hf, he, hd⟩ := flags_append_inj h
  cases x
  cases y
  simp_all only

theorem word_sinkOfWord (w : BitVec 11) : (sinkOfWord w).word = w := by
  simp only [sinkOfWord, SinkIn.word, ofBool_getElem, BitVec.extractLsb'_append_extractLsb'_eq_extractLsb',
    BitVec.extractLsb'_eq_self]

theorem word_rxOfWord (w : BitVec 6) : (rxOfWord w).word = w := by
  simp only [rxOfWord, RxIn.word, ofBool_getElem, BitVec.extractLsb'_append_extractLsb'_eq_extractLsb',
    BitVec.extractLsb'_eq_self]

theorem word_elementOfWord (w : BitVec 10) : (elementOfWord w).word = w := by
  simp only [elementOfWord, Element.word, ofBool_getElem, BitVec.extractLsb'_append_extractLsb'_eq_extractLsb',
    BitVec.extractLsb'_eq_self]

/-- Settles O5: joining undoes cutting, and cutting undoes joining because joining is injective. -/
theorem stimulusWordsRoundTrip : Obligations.StimulusWordsRoundTrip :=
  ⟨fun _ => SinkIn.word_injective (word_sinkOfWord _), word_sinkOfWord,
    fun _ => RxIn.word_injective (word_rxOfWord _), word_rxOfWord,
    fun _ => Element.word_injective (word_elementOfWord _), word_elementOfWord, rfl, rfl⟩

end Sys2Proof
end

section
/-!
The decoder and the encoder, format by format (rules R52, R58 to R61): what a TXSEL or RXSEL word decodes to is `txOp` or `rxOp`
of its fields (Laws/Tick.lean), unless its state field is `11`; a word of one bit is the bit itself.
-/

namespace Sys2Proof
open Sys2Proof.Machine

/-! The two FSM formats: the words of a state -/

/-- The only code that is no transmitter state is `11` (rules R53, R61). -/
theorem TxFsm.exists_code {c : BitVec 2} (h : c ≠ 0b11#2) : ∃ q : TxFsm, q.code = c := by
  have codes : ∀ c : BitVec 2, c ≠ 0b11#2 → c = TxFsm.idle.code ∨ c = TxFsm.sendLow.code ∨ c = TxFsm.sendHigh.code := by
    decide
  rcases codes c h with rfl | rfl | rfl
  exacts [⟨_, rfl⟩, ⟨_, rfl⟩, ⟨_, rfl⟩]

/-- The only code that is no receiver state is `11` (rules R54, R61). -/
theorem RxFsm.exists_code {c : BitVec 2} (h : c ≠ 0b11#2) : ∃ q : RxFsm, q.code = c := by
  have codes : ∀ c : BitVec 2, c ≠ 0b11#2 → c = RxFsm.idle.code ∨ c = RxFsm.loadHigh.code ∨ c = RxFsm.loadLow.code := by
    decide
  rcases codes c h with rfl | rfl | rfl
  exacts [⟨_, rfl⟩, ⟨_, rfl⟩, ⟨_, rfl⟩]

/-- A TXSEL word whose state field is a state is the selector of that state and its three input bits (rule R55). -/
theorem exists_selTx {w : BitVec 5} (h : w.extractLsb' 3 2 ≠ 0b11#2) : ∃ q v f e, selTx q v f e = w := by
  obtain ⟨q, hq⟩ := TxFsm.exists_code h
  refine ⟨q, w[2], w[1], w[0], ?_⟩
  simp only [selTx, hq, ofBool_getElem, BitVec.extractLsb'_append_extractLsb'_eq_extractLsb', BitVec.extractLsb'_eq_self]

/-- An RXSEL word whose state field is a state is the selector of that state and its input bit (rule R56). -/
theorem exists_selRx {w : BitVec 3} (h : w.extractLsb' 1 2 ≠ 0b11#2) : ∃ q d, selRx q d = w := by
  obtain ⟨q, hq⟩ := RxFsm.exists_code h
  refine ⟨q, w[0], ?_⟩
  simp only [selRx, hq, ofBool_getElem, BitVec.extractLsb'_append_extractLsb'_eq_extractLsb', BitVec.extractLsb'_eq_self]

/-- One row matches the selector of a transmitter state (rule R60). -/
theorem txRows_match_once (q : TxFsm) (v f e : Bool) :
    (txRows.filter (fun r => r.matches (selTx q v f e))).length = 1 := by
  cases q <;> cases v <;> cases f <;> cases e <;> rfl

/-- One row matches the selector of a receiver state (rule R60). -/
theorem rxRows_match_once (q : RxFsm) (d : Bool) : (rxRows.filter (fun r => r.matches (selRx q d))).length = 1 := by
  cases q <;> cases d <;> rfl

/-! The state code `11` -/

/-- Rows that test a whole field match no word whose value there is none of theirs. -/
theorem filter_matches_eq_nil_of_field {n lo len : Nat} {rows : List (OpRow n)} {w : BitVec n}
    (h : ∀ r ∈ rows, r.mask.extractLsb' lo len = BitVec.allOnes len ∧ r.pat.extractLsb' lo len ≠ w.extractLsb' lo len) :
    rows.filter (fun r => r.matches w) = [] := by
  refine List.filter_eq_nil_iff.2 fun r hr hmatch => ?_
  obtain ⟨hmask, hpat⟩ := h r hr
  have pat_eq : w &&& r.mask = r.pat := eq_of_beq hmatch
  apply hpat
  rw [← pat_eq, BitVec.extractLsb'_and, hmask, BitVec.and_allOnes]

/-- Every TX row tests the state field, for a state's code. -/
theorem txRows_filter_of_reserved {w : BitVec 5} (h : w.extractLsb' 3 2 = 0b11#2) :
    txRows.filter (fun r => r.matches w) = [] :=
  filter_matches_eq_nil_of_field (lo := 3) (len := 2) (by rw [h]; decide)

/-- Every RX row tests the state field, for a state's code. -/
theorem rxRows_filter_of_reserved {w : BitVec 3} (h : w.extractLsb' 1 2 = 0b11#2) :
    rxRows.filter (fun r => r.matches w) = [] :=
  filter_matches_eq_nil_of_field (lo := 1) (len := 2) (by rw [h]; decide)

/-- Where no row matches, the lookup rejects by the given name. -/
theorem lookup_of_filter_eq_nil {n : Nat} {rows : List (OpRow n)} {w : BitVec n}
    (h : rows.filter (fun r => r.matches w) = []) (no : Reject) : lookup rows w no = .error no := by
  have none_matches : rows.find? (fun r => r.matches w) = none := List.find?_eq_none.2 (List.filter_eq_nil_iff.1 h)
  rw [lookup, none_matches]

theorem decode_txsel (w : BitVec 5) : decode .txsel w.toNat = lookup txRows w .reservedState :=
  (if_pos w.isLt).trans (congrArg (lookup txRows · .reservedState) (by simp))

theorem decode_rxsel (w : BitVec 3) : decode .rxsel w.toNat = lookup rxRows w .reservedState :=
  (if_pos w.isLt).trans (congrArg (lookup rxRows · .reservedState) (by simp))

theorem decode_txsel_of_reserved {w : BitVec 5} (h : w.extractLsb' 3 2 = 0b11#2) :
    decode .txsel w.toNat = .error .reservedState := by
  rw [decode_txsel, lookup_of_filter_eq_nil (txRows_filter_of_reserved h)]

theorem decode_rxsel_of_reserved {w : BitVec 3} (h : w.extractLsb' 1 2 = 0b11#2) :
    decode .rxsel w.toNat = .error .reservedState := by
  rw [decode_rxsel, lookup_of_filter_eq_nil (rxRows_filter_of_reserved h)]

/-! The formats of one bit -/

/-- A number below 2 is a bit. -/
theorem exists_toNat_of_lt_two {w : Nat} (h : w < 2) : ∃ b : Bool, b.toNat = w := by
  interval_cases w
  exacts [⟨false, rfl⟩, ⟨true, rfl⟩]

/-- The ResetSync row of a sampled request (rules R57, R98, R99). -/
def rsOp (d : ClockDomain) (req : Bool) : Instr := if req then .rsReqHigh d else .rsReqLow d

theorem decode_rssel {d : ClockDomain} (hd : d.hasSync = true) (req : Bool) :
    decode (.rssel d) req.toNat = .ok (rsOp d req) := by
  cases d with
  | base => cases hd
  | tx => cases req <;> rfl
  | rx => cases req <;> rfl

theorem decode_rssel_base (req : Bool) : decode (.rssel .base) req.toNat = .error .noSynchronizer := by
  cases req <;> rfl

theorem decode_rstovr_base (rst : Bool) : decode (.rstovr .base) rst.toNat = .error .noSynchronizer := by
  cases rst <;> rfl

/-- RSTOVR 0 selects no override (rule R58). -/
theorem decode_rstovr_zero {d : ClockDomain} (hd : d.hasSync = true) : decode (.rstovr d) 0 = .error .noOverride := by
  cases d with
  | base => cases hd
  | tx => rfl
  | rx => rfl

theorem decode_hostw (v : Bool) : decode .hostw v.toNat = .ok (.hostWriteResetReq v) := by
  cases v <;> rfl

/-- One ResetSync row matches each request (rules R57, R60). -/
theorem rsRows_match_once (d : ClockDomain) (w : BitVec 1) : ((rsRows d).filter (fun r => r.matches w)).length = 1 := by
  rcases BitVec.eq_zero_or_eq_one w with rfl | rfl <;> simp [rsRows, OpRow.matches]

/-! Encoding what was decoded -/

theorem wellFormed_and_encode_txOp (q : TxFsm) (i : SinkIn) :
    (txOp q i).WellFormed ∧ encode (txOp q i) = ⟨.txsel, (selTx q i.valid i.sof i.eof).toNat⟩ := by
  obtain ⟨v, d, f, e⟩ := i
  cases q with
  | idle => cases v <;> cases f <;> exact ⟨rfl, rfl⟩
  | sendLow => exact ⟨rfl, rfl⟩
  | sendHigh => cases v <;> cases e <;> exact ⟨rfl, rfl⟩

theorem wellFormed_and_encode_rxOp (q : RxFsm) (d : Bool) :
    (rxOp q d).WellFormed ∧ encode (rxOp q d) = ⟨.rxsel, (selRx q d).toNat⟩ := by
  cases q <;> cases d <;> exact ⟨rfl, rfl⟩

theorem wellFormed_and_encode_rsOp {d : ClockDomain} (hd : d.hasSync = true) (req : Bool) :
    (rsOp d req).WellFormed ∧ encode (rsOp d req) = ⟨.rssel d, req.toNat⟩ := by
  cases req <;> exact ⟨hd, rfl⟩

theorem lt_of_decode_eq_ok {fmt : Format} {w : Nat} {i : Instr} (h : decode fmt w = .ok i) : w < 2 ^ fmt.width := by
  by_contra wide
  rw [decode.eq_def, if_neg wide] at h
  cases h

theorem wellFormed_and_encode_of_decode_txsel {w : BitVec 5} {i : Instr} (h : decode .txsel w.toNat = .ok i) :
    i.WellFormed ∧ encode i = ⟨.txsel, w.toNat⟩ := by
  by_cases reserved : w.extractLsb' 3 2 = 0b11#2
  · rw [decode_txsel_of_reserved reserved] at h
    cases h
  · obtain ⟨q, v, f, e, rfl⟩ := exists_selTx reserved
    rw [decode_selTx q v f e 0] at h
    cases h
    exact wellFormed_and_encode_txOp q ⟨v, 0, f, e⟩

theorem wellFormed_and_encode_of_decode_rxsel {w : BitVec 3} {i : Instr} (h : decode .rxsel w.toNat = .ok i) :
    i.WellFormed ∧ encode i = ⟨.rxsel, w.toNat⟩ := by
  by_cases reserved : w.extractLsb' 1 2 = 0b11#2
  · rw [decode_rxsel_of_reserved reserved] at h
    cases h
  · obtain ⟨q, d, rfl⟩ := exists_selRx reserved
    rw [decode_selRx] at h
    cases h
    exact wellFormed_and_encode_rxOp q d

theorem wellFormed_and_encode_of_decode_rssel {d : ClockDomain} {req : Bool} {i : Instr}
    (h : decode (.rssel d) req.toNat = .ok i) : i.WellFormed ∧ encode i = ⟨.rssel d, req.toNat⟩ := by
  have hd : d.hasSync = true := by
    cases d with
    | base => rw [decode_rssel_base] at h; cases h
    | tx => rfl
    | rx => rfl
  rw [decode_rssel hd] at h
  cases h
  exact wellFormed_and_encode_rsOp hd req

theorem wellFormed_and_encode_of_decode_rstovr {d : ClockDomain} {rst : Bool} {i : Instr}
    (h : decode (.rstovr d) rst.toNat = .ok i) : i.WellFormed ∧ encode i = ⟨.rstovr d, rst.toNat⟩ := by
  cases d with
  | base => rw [decode_rstovr_base] at h; cases h
  | tx => cases rst <;> cases h; exact ⟨rfl, rfl⟩
  | rx => cases rst <;> cases h; exact ⟨rfl, rfl⟩

/-- Settles O3, operation by operation: those of an FSM by the case list of its state, the rest by their bit. -/
theorem decodeOfEncode : Obligations.DecodeOfEncode := by
  intro i wf
  cases i with
  | txIdleWait f e => exact decode_selTx .idle false f e 0
  | txIdleDiscard e => exact decode_selTx .idle true false e 0
  | txIdleStart e => exact decode_selTx .idle true true e 0
  | txSendLow v f e => exact decode_selTx .sendLow v f e 0
  | txSendHighLast f => exact decode_selTx .sendHigh true f true 0
  | txSendHighNext f => exact decode_selTx .sendHigh true f false 0
  | txSendHighUnderrun f e => exact decode_selTx .sendHigh false f e 0
  | rxIdleWait => exact decode_selRx .idle false
  | rxIdleCapture => exact decode_selRx .idle true
  | rxLoadHigh d => exact decode_selRx .loadHigh d
  | rxLoadLowNext => exact decode_selRx .loadLow true
  | rxLoadLowLast => exact decode_selRx .loadLow false
  | baseToggle => rfl
  | hostWriteResetReq v => exact decode_hostw v
  | rsReqHigh d => exact decode_rssel wf true
  | rsReqLow d => exact decode_rssel wf false
  | txResetOverride => rfl
  | rxResetOverride => rfl

/-- Settles O4, format by format: a word that decodes is in range, and so a bit vector of the format's width. -/
theorem encodeOfDecode : Obligations.EncodeOfDecode := by
  intro fmt w i h
  have inRange : w < 2 ^ fmt.width := lt_of_decode_eq_ok h
  cases fmt with
  | txsel =>
    rw [← BitVec.toNat_ofNatLT w inRange] at h ⊢
    exact wellFormed_and_encode_of_decode_txsel h
  | rxsel =>
    rw [← BitVec.toNat_ofNatLT w inRange] at h ⊢
    exact wellFormed_and_encode_of_decode_rxsel h
  | rssel d =>
    obtain ⟨req, rfl⟩ := exists_toNat_of_lt_two inRange
    exact wellFormed_and_encode_of_decode_rssel h
  | rstovr d =>
    obtain ⟨rst, rfl⟩ := exists_toNat_of_lt_two inRange
    exact wellFormed_and_encode_of_decode_rstovr h
  | base =>
    obtain rfl : w = 0 := Nat.lt_one_iff.1 inRange
    cases h
    exact ⟨rfl, rfl⟩
  | hostw =>
    obtain ⟨v, rfl⟩ := exists_toNat_of_lt_two inRange
    rw [decode_hostw] at h
    cases h
    exact ⟨rfl, rfl⟩

/-- Settles O1: the words are the selectors of a state and its input bits, a state field `11`, or a bit. -/
theorem opcodeMapWords : Obligations.OpcodeMapWords :=
  ⟨decode_selTx .idle true true false 0, decode_selTx .sendHigh true true true 0, decode_selTx .sendLow true false true 0,
    decode_txsel_of_reserved (w := 0b11000#5) rfl, decode_selRx .loadLow true, decode_selRx .loadHigh false,
    decode_rxsel_of_reserved (w := 0b111#3) rfl, decode_rssel (d := .rx) rfl true, decode_rssel (d := .tx) rfl false,
    rfl, decode_rstovr_zero rfl, rfl, decode_hostw true⟩

/-- Settles O2: a word with a state in its field is a selector of that state, which one row matches, and `11` is in no row. -/
theorem decodeCompleteness : Obligations.DecodeCompleteness := by
  refine ⟨fun f e => decode_selTx .idle false f e 0, fun e => decode_selTx .idle true false e 0,
    fun e => decode_selTx .idle true true e 0, fun v f e => decode_selTx .sendLow v f e 0,
    fun f e => decode_selTx .sendHigh false f e 0, fun f => decode_selTx .sendHigh true f true 0,
    fun f => decode_selTx .sendHigh true f false 0, fun w hw => ?txOne, fun w hw => ?rxOne, rsRows_match_once,
    fun w hw => ⟨txRows_filter_of_reserved hw, decode_txsel_of_reserved hw⟩,
    fun w hw => ⟨rxRows_filter_of_reserved hw, decode_rxsel_of_reserved hw⟩⟩
  case txOne =>
    obtain ⟨q, v, f, e, rfl⟩ := exists_selTx hw
    exact txRows_match_once q v f e
  case rxOne =>
    obtain ⟨q, d, rfl⟩ := exists_selRx hw
    exact rxRows_match_once q d

/-- Settles O24: neither word of either format decodes, and the rows' check of the domain refuses. -/
theorem baseHasNoSynchronizer : Obligations.BaseHasNoSynchronizer := by
  refine ⟨fun w hw => ?_, fun _ => ⟨rfl, rfl⟩⟩
  obtain ⟨b, rfl⟩ := exists_toNat_of_lt_two hw
  exact ⟨decode_rssel_base b, decode_rstovr_base b⟩

/-- Settles O25: the override's writes are those of `forceIdle`. -/
theorem txResetOverrideResult : Obligations.TxResetOverrideResult :=
  ⟨rfl, decode_rstovr_zero rfl, fun _ => rfl⟩

/-- Settles O26: the override's writes are those of `forceIdle`. -/
theorem rxResetOverrideResult : Obligations.RxResetOverrideResult :=
  ⟨rfl, decode_rstovr_zero rfl, fun _ => rfl⟩

end Sys2Proof
end

section
/-!
The seven TX rows, in a tick out of reset and in a reset tick (rules R37, R67 to R74, R100): `exec` of a TX row is the common tick
of the row's table line `txRow`, and that tick is written out once for each of the two kinds of tick.
-/

namespace Sys2Proof.Machine

/-! Decoding by match and mask (rules R52, R59, R60) -/

/-- A TXSEL word that matches a row selects that row's operation, because no other row matches it. -/
theorem decode_txsel_of_matches {r : OpRow 5} (hr : r ∈ txRows) {w : BitVec 5} (hw : w &&& r.mask = r.pat) :
    decode .txsel w.toNat = .ok (r.op w) := by
  have found : r ∈ txRows.filter (fun r => r.matches w) := List.mem_filter.2 ⟨hr, beq_iff_eq.2 hw⟩
  have state : w.extractLsb' 3 2 ≠ 0b11#2 := fun reserved => by
    rw [txRows_filter_of_reserved reserved] at found
    cases found
  obtain ⟨q, v, f, e, rfl⟩ := exists_selTx state
  obtain ⟨r', only⟩ := List.length_eq_one_iff.1 (txRows_match_once q v f e)
  rw [only] at found
  obtain rfl := List.mem_singleton.1 found
  rw [decode_txsel, lookup, ← List.head?_filter, only]
  rfl

/-- The same for the row's number in the table of R59. -/
theorem decode_txsel_row (n : Fin 7) {w : BitVec 5} (hw : w &&& (txRows.get n).mask = (txRows.get n).pat) :
    decode .txsel w.toNat = .ok ((txRows.get n).op w) :=
  decode_txsel_of_matches (List.get_mem txRows n) hw

/-! What a row does -/

/-- A TX row takes its flags from the selector and its data from the latched inputs (rules R55, R62, R68 to R74). -/
theorem exec_txOp_eq_txTick (q : TxFsm) (i : SinkIn) (s : State) :
    exec (txOp q i) s = .next (s.txTick (txRow q { i with data := s.tx.inp.data })) := by
  obtain ⟨v, d, f, e⟩ := i
  cases q with
  | idle => cases v <;> cases f <;> rfl
  | sendLow => rfl
  | sendHigh => cases v <;> cases e <;> rfl

/-- The operations of format TXSEL are those of the case list of R60. -/
theorem exists_txOp_of_txsel {i : Instr} (h : (encode i).fmt = .txsel) : ∃ q j, i = txOp q j := by
  cases i with
  | txIdleWait f e => exact ⟨.idle, ⟨false, 0, f, e⟩, rfl⟩
  | txIdleDiscard e => exact ⟨.idle, ⟨true, 0, false, e⟩, rfl⟩
  | txIdleStart e => exact ⟨.idle, ⟨true, 0, true, e⟩, rfl⟩
  | txSendLow v f e => exact ⟨.sendLow, ⟨v, 0, f, e⟩, rfl⟩
  | txSendHighLast f => exact ⟨.sendHigh, ⟨true, 0, f, true⟩, rfl⟩
  | txSendHighNext f => exact ⟨.sendHigh, ⟨true, 0, f, false⟩, rfl⟩
  | txSendHighUnderrun f e => exact ⟨.sendHigh, ⟨false, 0, f, e⟩, rfl⟩
  | _ => cases h

/-- The common part of a tx tick out of reset (rules R36, R37, R67). -/
theorem txTick_of_normal {s : State} (h : s.resetTick .tx = false) (w : TxRow) :
    s.txTick w =
      { s with
        tx :=
          { s.tx with
            state := w.next
            enQ := w.en
            dataQ := w.nib.getD (Config.txDraw4 s.tx.draws)
            draws := if w.nib.isNone then s.tx.draws + 1 else s.tx.draws
            out := { ready := w.ready, en := s.tx.enQ, data := s.tx.dataQ, er := false, rst := false }
            taken := transfer (w.valid && w.ready) ⟨s.tx.inp.data, w.sof, w.eof⟩ s.tx.taken
            offer := duty false w.valid w.ready ⟨s.tx.inp.data, w.sof, w.eof⟩
            recDiscard := s.tx.recDiscard || w.discard
            recUnderrun := s.tx.recUnderrun || w.underrun
            recUnstable := s.tx.recUnstable || breaksDuty s.tx.offer w.valid ⟨s.tx.inp.data, w.sof, w.eof⟩ } } := by
  rw [resetTick_tx] at h
  rw [State.txTick, load_tx_of_normal ((s.tx.drive w).watch w) h, TxDomain.watch, TxDomain.drive, h]
  rfl

/-- The row's part of a tx reset tick: outputs, transfer and the watch of R37 (rules R36, R100; log entries 7 and 8). -/
theorem txTick_of_reset {s : State} (h : s.resetTick .tx = true) (w : TxRow) :
    s.txTick w =
      { s with
        tx :=
          { s.tx with
            out := { ready := w.ready, en := s.tx.enQ, data := s.tx.dataQ, er := false, rst := true }
            taken := transfer (w.valid && w.ready) ⟨s.tx.inp.data, w.sof, w.eof⟩ s.tx.taken
            offer := none
            recUnstable := s.tx.recUnstable || breaksDuty s.tx.offer w.valid ⟨s.tx.inp.data, w.sof, w.eof⟩ } } := by
  rw [resetTick_tx] at h
  rw [State.txTick, load_tx_of_reset ((s.tx.drive w).watch w) h, TxDomain.watch, TxDomain.drive, h, duty, Bool.not_true,
    Bool.and_false]
  rfl

/-- Settles O13: the row's part of a reset tick keeps outputs, transfer and watch of the tick out of reset, and no more. -/
theorem txRowsInResetTick : Obligations.TxRowsInResetTick := by
  intro i s hfmt hrst
  obtain ⟨q, j, rfl⟩ := exists_txOp_of_txsel hfmt
  have normal : State.resetTick { s with tx := { s.tx with sync := [] } } .tx = false := rfl
  refine ⟨_, _, exec_txOp_eq_txTick q j s, exec_txOp_eq_txTick q j _, ?_⟩
  rw [txTick_of_reset hrst, txTick_of_normal normal]
  exact ⟨rfl, rfl, rfl⟩

/-- Settles O6: the row is never a transfer and draws its nibble. -/
theorem txIdleWaitResult : Obligations.TxIdleWaitResult := by
  refine ⟨fun w hw => decode_txsel_row 0 hw, fun f e s h => (exec_txOp_eq_txTick .idle ⟨false, 0, f, e⟩ s).trans ?_⟩
  simp [txTick_of_normal h, txRow, duty]

/-- Settles O7: offered and ready, so the element is taken, and the row sets its record. -/
theorem txIdleDiscardResult : Obligations.TxIdleDiscardResult := by
  refine ⟨fun w hw => decode_txsel_row 1 hw, fun e s h => (exec_txOp_eq_txTick .idle ⟨true, 0, false, e⟩ s).trans ?_⟩
  simp [txTick_of_normal h, txRow, duty]

/-- Settles O8: offered and not ready, so the element is owed. -/
theorem txIdleStartResult : Obligations.TxIdleStartResult := by
  refine ⟨fun w hw => decode_txsel_row 2 hw, fun e s h => (exec_txOp_eq_txTick .idle ⟨true, 0, true, e⟩ s).trans ?_⟩
  simp [txTick_of_normal h, txRow, duty]

/-- Settles O9: not ready, so an offered element is owed. -/
theorem txSendLowResult : Obligations.TxSendLowResult := by
  refine ⟨fun w hw => decode_txsel_row 3 hw, fun v f e s h => (exec_txOp_eq_txTick .sendLow ⟨v, 0, f, e⟩ s).trans ?_⟩
  simp [txTick_of_normal h, txRow, duty, lowNibble]

/-- Settles O10: offered and ready, so the element is taken, and eof leads to IDLE. -/
theorem txSendHighLastResult : Obligations.TxSendHighLastResult := by
  refine ⟨fun w hw => decode_txsel_row 4 hw, fun f s h => (exec_txOp_eq_txTick .sendHigh ⟨true, 0, f, true⟩ s).trans ?_⟩
  simp [txTick_of_normal h, txRow, duty, highNibble]

/-- Settles O11: offered and ready, so the element is taken, and without eof the frame goes on. -/
theorem txSendHighNextResult : Obligations.TxSendHighNextResult := by
  refine ⟨fun w hw => decode_txsel_row 5 hw, fun f s h => (exec_txOp_eq_txTick .sendHigh ⟨true, 0, f, false⟩ s).trans ?_⟩
  simp [txTick_of_normal h, txRow, duty, highNibble]

/-- Settles O12: ready with nothing offered, so nothing is taken or owed. -/
theorem txSendHighUnderrunResult : Obligations.TxSendHighUnderrunResult := by
  refine ⟨fun w hw => decode_txsel_row 6 hw, fun f e s h => (exec_txOp_eq_txTick .sendHigh ⟨false, 0, f, e⟩ s).trans ?_⟩
  simp [txTick_of_normal h, txRow, duty, highNibble]

end Sys2Proof.Machine
end

section
/-!
One tick and the next on the sink and the pins (rules R67, R75, R76, R78), in every state and in reset ticks too.
-/

namespace Sys2Proof.Machine

/-- The readiness of a row (rule R76). -/
theorem txRow_ready (q : TxFsm) (i : SinkIn) :
    (txRow q i).ready =
      match q with
      | .idle => !(i.valid && i.sof)
      | .sendLow => false
      | .sendHigh => true := by
  cases q <;> rfl

/-- Settles O37: the readiness of a tick is its row's, reset tick or not. -/
theorem readinessProfile : Obligations.ReadinessProfile := by
  intro s i
  have ready : (lineStep (.tx i) s).tx.out.ready = (txRow s.tx.state i).ready := by rw [lineStep, setTx_tx, txStep_out]
  refine ⟨_, runLines_one _ s, ?_⟩
  rw [setStim_tx, ready, txRow_ready]
  exact ⟨fun h => by rw [h], fun h => by rw [h], fun h => by rw [h]⟩

/-- The pins of a tx tick are the registers it found, reset tick or not (rules R20, R67). -/
theorem lineStep_tx_pins (i : SinkIn) (s : State) :
    (lineStep (.tx i) s).tx.out.en = s.tx.enQ ∧ (lineStep (.tx i) s).tx.out.data = s.tx.dataQ ∧
      (lineStep (.tx i) s).tx.out.er = false := by
  rw [lineStep, setTx_tx, txStep_out]
  exact ⟨rfl, rfl, rfl⟩

/-- Settles O38: the registers a tick loads, its row's enable and nibble, are the pins of the next. -/
theorem pinsShowPreviousTick : Obligations.PinsShowPreviousTick := by
  intro s i j normal
  obtain ⟨en, data, er⟩ := lineStep_tx_pins i s
  obtain ⟨en', data', er'⟩ := lineStep_tx_pins j (lineStep (.tx i) s)
  have enQ : (lineStep (.tx i) s).tx.enQ = (txRow s.tx.state i).en := by
    rw [lineStep, setTx_tx, txStep_enQ, ← resetTick_tx, normal]; rfl
  have dataQ : (lineStep (.tx i) s).tx.dataQ = (txRow s.tx.state i).nib.getD (Config.txDraw4 s.tx.draws) :=
    txStep_dataQ_of_normal _ _ _ _ normal
  refine ⟨_, _, runLines_one _ s, runLines_two _ _ s, en, data, er, er', en', data', fun h => ?_, fun h => ?_, fun h => ?_⟩
  · rw [setStim_tx, en', enQ, h]; rfl
  · rw [setStim_tx, en', data', enQ, dataQ, h]; exact ⟨rfl, rfl⟩
  · rw [setStim_tx, en', data', enQ, dataQ, h]; exact ⟨rfl, rfl⟩

/-- Inputs that agree on valid and on what the state reads give the same row but for the element's flags (rule R75). -/
theorem txRow_congr {q : TxFsm} {i j : SinkIn} (valid : i.valid = j.valid) (sof : q = .idle → i.sof = j.sof)
    (eof : q = .sendHigh → i.eof = j.eof) (low : q = .sendLow → lowNibble i.data = lowNibble j.data)
    (high : q = .sendHigh → highNibble i.data = highNibble j.data) :
    txRow q i = { txRow q j with sof := i.sof, eof := i.eof } := by
  cases q with
  | idle => simp [txRow, valid, sof rfl]
  | sendLow => simp [txRow, valid, low rfl]
  | sendHigh => simp [txRow, valid, eof rfl, high rfl]

/-- The element's flags, and its data but for the nibble, go only to the latched inputs, the transferred elements and the watch of
R37. -/
theorem txStep_congr (m : AssertMode) (req : Bool) {i j : SinkIn} {t : TxDomain}
    (h : txRow t.state i = { txRow t.state j with sof := i.sof, eof := i.eof }) :
    txStep m req i t =
      { txStep m req j t with
        inp := (txStep m req i t).inp
        taken := (txStep m req i t).taken
        offer := (txStep m req i t).offer
        recUnstable := (txStep m req i t).recUnstable } := by
  cases hr : lastStage t.sync
  · rw [txStep_of_normal m req i t hr, txStep_of_normal m req j t hr, h,
      load_tx_of_normal ((({ t with inp := i } : TxDomain).drive _).watch _) hr,
      load_tx_of_normal ((({ t with inp := j } : TxDomain).drive _).watch _) hr]
    rfl
  · rw [txStep_of_reset m req i t hr, txStep_of_reset m req j t hr, h]
    rfl

/-- Settles O39: the two ticks run one row but for the element's flags. -/
theorem inputsReadPerState : Obligations.InputsReadPerState := by
  intro s i j valid sof eof low high
  refine ⟨_, _, runLines_one _ s, runLines_one _ s, ?_⟩
  exact congrArg (fun t => (s.setTx t).setStim []) (txStep_congr _ _ (txRow_congr valid sof eof low high))

end Sys2Proof.Machine
end

section
/-!
One frame on the transmitter's pins, tick by tick, and the frame that is never closed (rules R39, R77 to R80): the run of Carries
above, cut off after any number of ticks.
-/

namespace Sys2Proof.Machine

/-- A byte stands on the pins as its two nibbles, with enable (rule R39). -/
theorem byteInputs_eq_map (bs : List Byte) : byteInputs bs = (nibblesOf bs).map fun n => { dv := true, data := n } := by
  induction bs with
  | nil => rfl
  | cons b bs ih => rw [byteInputs, ih]; rfl

theorem nibblesOf_length (bs : List Byte) : (nibblesOf bs).length = 2 * bs.length := by
  induction bs with
  | nil => rfl
  | cons b bs ih => simp only [nibblesOf, List.length_cons, ih]; omega

/-- Over the ticks `is` the domain takes `xs` from the sink, one element in every second tick (rule R79). -/
def TxDomain.TakesInPairs (m : AssertMode) (is : List SinkIn) (xs : List Element) (t : TxDomain) : Prop :=
  ∀ k, (txRun m (is.take k) t).taken = t.taken ++ xs.take (k / 2)

section
variable {m : AssertMode} {t : TxDomain} {o : Option Element}

/-- A tick's pins are what the tick before left there (rules R67, R78). -/
theorem wire_getElem? {is : List SinkIn} {k : Nat} (hk : k + 1 < is.length) :
    (wire m is t)[k]? =
      some { dv := (txRun m (is.take (k + 2)) t).out.en, data := (txRun m (is.take (k + 2)) t).out.data } := by
  induction k generalizing is t with
  | zero =>
    match is, hk with
    | i :: j :: js, _ =>
      have shown : (txRun m [i, j] t).out = _ := txStep_out m false j (txStep m false i t)
      rw [List.take_succ_cons, List.take_succ_cons, List.take_zero, shown]
      rfl
  | succ k ih =>
    cases is with
    | nil => simp at hk
    | cons i is => exact ih (Nat.lt_of_succ_lt_succ hk)

theorem TxDomain.TakesInPairs.nil : t.TakesInPairs m [] [] := fun k => by simp

/-- A byte is taken in the second of its two ticks (rules R71 to R73). -/
theorem TxDomain.At.takesInPairs_byte {b : Byte} {f e : Bool} (h : t.At .sendLow o)
    (keeps : breaksDuty o true ⟨b, f, e⟩ = false) {is : List SinkIn} {xs : List Element}
    (rest : (txRun m [⟨true, b, f, e⟩, ⟨true, b, f, e⟩] t).TakesInPairs m is xs) :
    t.TakesInPairs m (⟨true, b, f, e⟩ :: ⟨true, b, f, e⟩ :: is) (⟨b, f, e⟩ :: xs) := by
  obtain ⟨byte, -⟩ := h.carries_byte (m := m) keeps
  intro k
  match k with
  | 0 => simp
  | 1 => exact (h.carries_tick ⟨true, b, f, e⟩ rfl rfl keeps).taken
  | k + 2 =>
    have later := rest k
    rw [byte.taken, List.append_assoc] at later
    rw [Nat.add_div_right k Nat.two_pos]
    exact later

/-- The bytes of a frame after its first are taken one in every second tick. -/
theorem TxDomain.At.takesInPairs_frameTail (bs : List Byte) {t : TxDomain}
    (h : t.At (if bs.isEmpty then .idle else .sendLow) none) : t.TakesInPairs m (frameTail bs) (frameOfTail bs) := by
  induction bs generalizing t with
  | nil => exact .nil
  | cons b bs ih =>
    obtain ⟨-, after⟩ := h.carries_byte (m := m) (b := b) (f := false) (e := bs.isEmpty) rfl
    exact h.takesInPairs_byte rfl (ih after)

/-- The start of a frame leaves the enable low and owes the element, whatever was owed before (rule R70). -/
theorem TxDomain.At.start (h : t.At .idle o) (b : Byte) (e : Bool) {u : TxDomain} (hu : u = txStep m false ⟨true, b, true, e⟩ t) :
    u.At .sendLow (some ⟨b, true, e⟩) ∧ u.enQ = false ∧ u.taken = t.taken := by
  subst hu
  exact ⟨h.tick ⟨true, b, true, e⟩, h.tick_enQ ⟨true, b, true, e⟩, by rw [txStep_taken, h.state]; rfl⟩

/-- A frame from IDLE, whatever was owed before: its element j is taken in tick 2 + 2j (rule R79). -/
theorem TxDomain.At.taken_frame {bs : List Byte} (hbs : bs ≠ []) (h : t.At .idle o) (k : Nat) :
    (txRun m ((frameInputs bs).take (k + 1)) t).taken = t.taken ++ (frameOf bs).take (k / 2) := by
  obtain ⟨b, bs, rfl⟩ := List.exists_cons_of_ne_nil hbs
  obtain ⟨owing, -, taken⟩ := h.start (m := m) b bs.isEmpty rfl
  have keeps : breaksDuty (some ⟨b, true, bs.isEmpty⟩) true ⟨b, true, bs.isEmpty⟩ = false := by simp
  obtain ⟨-, after⟩ := owing.carries_byte (m := m) keeps
  rw [← taken]
  exact owing.takesInPairs_byte keeps (TxDomain.At.takesInPairs_frameTail bs after) k

/-- A frame from IDLE, whatever was owed before, and one tick more on the pins: its nibbles, low first, with one tick without
enable on either side (rules R39, R77, R79). -/
theorem TxDomain.At.wire_frame {bs : List Byte} (hbs : bs ≠ []) (h : t.At .idle o) (i : SinkIn) (is : List SinkIn) :
    ∃ before after rest, before.dv = false ∧ after.dv = false ∧
      wire m (frameInputs bs ++ i :: is) t = before :: (byteInputs bs ++ after :: rest) := by
  obtain ⟨b, bs, rfl⟩ := List.exists_cons_of_ne_nil hbs
  obtain ⟨owing, low, -⟩ := h.start (m := m) b bs.isEmpty rfl
  obtain ⟨byte, after⟩ := owing.carries_byte (m := m) (b := b) (f := true) (e := bs.isEmpty) (by simp)
  obtain ⟨tail, idle⟩ := TxDomain.At.carries_frameTail bs after
  rw [← txRun_append] at idle
  have quietBefore : (txStep m false ⟨true, b, true, bs.isEmpty⟩ t).pins.dv = false := low
  have quietAfter : (txStep m false i _).pins.dv = false := idle.tick_enQ (m := m) i
  have body := (byte.append tail).shown
  exact ⟨_, _, _, quietBefore, quietAfter, congrArg (_ :: ·) ((wire_append _ _).trans (congrArg (· ++ _) body))⟩

end

/-- On the wire of nibbles `ns` between ticks without enable, the first and the one after the last nibble, enable is 1 exactly
while a nibble is shown. -/
theorem enable_of_frame_getElem? {before after p : RxIn} {rest : List RxIn} {ns : List Nibble} (hb : before.dv = false)
    (ha : after.dv = false) {k : Nat} (hk : k ≤ ns.length + 1)
    (hp : (before :: (ns.map (fun n => ({ dv := true, data := n } : RxIn)) ++ after :: rest))[k]? = some p) :
    p.dv = decide (1 ≤ k ∧ k ≤ ns.length) ∧ (1 ≤ k → k ≤ ns.length → ns[k - 1]? = some p.data) := by
  cases k with
  | zero =>
    obtain rfl : before = p := Option.some.inj hp
    simp [hb]
  | succ k =>
    rw [List.getElem?_cons_succ] at hp
    by_cases inside : k < ns.length
    · rw [List.getElem?_append_left (by simpa using inside), List.getElem?_map, List.getElem?_eq_getElem inside] at hp
      obtain rfl := Option.some.inj hp
      simp [inside, Nat.succ_le_of_lt inside]
    · obtain rfl : k = ns.length := by omega
      rw [List.getElem?_append_right (by simp)] at hp
      obtain rfl : after = p := by simpa using hp
      simp [ha]

/-- The pins of tick n + 1 of a frame from IDLE: no enable in the first tick after the start, then the frame's nibbles, then
no enable again (rule R79). -/
theorem TxDomain.At.pins_frame {m : AssertMode} {t u : TxDomain} {o : Option Element} {bs : List Byte} (hbs : bs ≠ [])
    (h : t.At .idle o) (i j : SinkIn) {n : Nat} (hn : n ≤ 2 * bs.length + 1)
    (hu : u = txRun m ((frameInputs bs ++ [i, j]).take (n + 2)) t) :
    u.out.en = decide (1 ≤ n ∧ n ≤ 2 * bs.length) ∧
      (1 ≤ n → n ≤ 2 * bs.length → (nibblesOf bs)[n - 1]? = some u.out.data) := by
  obtain ⟨before, after, rest, hb, ha, shown⟩ := h.wire_frame (m := m) hbs i [j]
  have len : n + 1 < (frameInputs bs ++ [i, j]).length := by
    rw [List.length_append, frameInputs_length hbs]
    exact Nat.add_lt_add_right (Nat.lt_succ_of_le hn) 1
  have pin : (wire m (frameInputs bs ++ [i, j]) t)[n]? = some { dv := u.out.en, data := u.out.data } := by
    rw [hu, wire_getElem? len]
  rw [shown, byteInputs_eq_map] at pin
  rw [← nibblesOf_length] at hn ⊢
  exact enable_of_frame_getElem? hb ha hn pin

/-- Settles O40: cut off after any tick, the run has taken every second tick's element, and the pins are the wire of the ticks
before. -/
theorem frameOnPins : Obligations.FrameOnPins := by
  intro s bs i j ⟨hreq, released⟩ hidle hbs k hk
  have idle : s.tx.At .idle s.tx.offer := ⟨released, hidle, rfl⟩
  have ticks : txframe bs ++ [Line.tx i, Line.tx j] = (frameInputs bs ++ [i, j]).map Line.tx := by simp [txframe]
  refine ⟨_, runLines_after _ s, ?_⟩
  rw [ticks, ← List.map_take, afterLines_map_tx _ hreq, setStim_tx, setTx_tx]
  refine ⟨fun started => ?enable, fun started ended => ?nibble, fun inFrame => ?taken⟩
  case enable =>
    obtain ⟨n, rfl⟩ := Nat.exists_eq_add_of_le' started
    obtain ⟨enable, -⟩ := idle.pins_frame (n := n) hbs i j (by omega) rfl
    rw [enable, decide_eq_decide]
    omega
  case nibble =>
    obtain ⟨n, rfl⟩ := Nat.exists_eq_add_of_le' (Nat.one_le_of_lt started)
    obtain ⟨-, nibble⟩ := idle.pins_frame (n := n) hbs i j (by omega) rfl
    exact nibble (by omega) (by omega)
  case taken =>
    have cut : k + 1 ≤ (frameInputs bs).length := by rw [frameInputs_length hbs]; omega
    rw [List.take_append_of_le_length cut]
    exact idle.taken_frame hbs k

/-! The frame that is never closed -/

/-- A row outside IDLE enables (rules R71 to R74). -/
theorem txRow_en {q : TxFsm} (h : q ≠ .idle) (i : SinkIn) : (txRow q i).en = true := by
  cases q with
  | idle => exact absurd rfl h
  | sendLow => rfl
  | sendHigh => rfl

/-- The state of an open frame after `k` ticks from SEND_LOW. -/
def openFrameState (k : Nat) : TxFsm := if k % 2 = 0 then .sendLow else .sendHigh

theorem openFrameState_ne_idle (k : Nat) : openFrameState k ≠ .idle := by
  unfold openFrameState; split <;> decide

theorem openFrameState_succ (k : Nat) : openFrameState (k + 1) = if k % 2 = 0 then .sendHigh else .sendLow := by
  rcases Nat.mod_two_eq_zero_or_one k with even | odd
  · simp [openFrameState, even, Nat.succ_mod_two_eq_one_iff.2 even]
  · simp [openFrameState, odd, Nat.succ_mod_two_eq_zero_iff.2 odd]

/-- A tick of an open frame goes on to the other state, unless SEND_HIGH sees a valid eof (rules R71, R73, R74). -/
theorem txRow_next_openFrameState {k : Nat} {i : SinkIn} (h : k % 2 = 1 → ¬(i.valid = true ∧ i.eof = true)) :
    (txRow (openFrameState k) i).next = openFrameState (k + 1) := by
  rw [openFrameState_succ, openFrameState]
  rcases Nat.mod_two_eq_zero_or_one k with even | odd
  · simp [even, txRow_next]
  · simp [odd, txRow_next, h odd]

section
variable {m : AssertMode} {t : TxDomain} {o : Option Element} {x : Nat → SinkIn}

theorem txRun_range_succ (k : Nat) :
    txRun m ((List.range (k + 1)).map x) t = txStep m false (x k) (txRun m ((List.range k).map x) t) := by
  rw [List.range_succ, List.map_append, txRun_append]; rfl

/-- From SEND_LOW, with no valid eof in a SEND_HIGH tick, the frame stays open (rule R80). -/
theorem TxDomain.At.openFrame (h : t.At .sendLow o)
    (noEnd : ∀ n, ¬((x (2 * n + 1)).valid = true ∧ (x (2 * n + 1)).eof = true)) (k : Nat) :
    ∃ o', (txRun m ((List.range k).map x) t).At (openFrameState k) o' := by
  induction k with
  | zero => exact ⟨o, h⟩
  | succ k ih =>
    obtain ⟨_, before⟩ := ih
    have goesOn : (txRow (openFrameState k) (x k)).next = openFrameState (k + 1) :=
      txRow_next_openFrameState fun odd => by
        have hk : 2 * (k / 2) + 1 = k := by omega
        exact hk ▸ noEnd (k / 2)
    rw [txRun_range_succ, ← goesOn]
    exact ⟨_, before.tick (x k)⟩

/-- Each tick of an open frame loads enable (rules R71 to R74). -/
theorem TxDomain.At.openFrame_enQ (h : t.At .sendLow o)
    (noEnd : ∀ n, ¬((x (2 * n + 1)).valid = true ∧ (x (2 * n + 1)).eof = true)) (k : Nat) :
    (txRun m ((List.range (k + 1)).map x) t).enQ = true := by
  obtain ⟨_, before⟩ := h.openFrame (m := m) noEnd k
  rw [txRun_range_succ, before.tick_enQ, txRow_en (openFrameState_ne_idle k)]

end

/-- Settles O42: after each tick the frame is open and enable loaded, and the pins show what the tick before loaded. -/
theorem openFrameNeverEnds : Obligations.OpenFrameNeverEnds := by
  intro s x ⟨hreq, released⟩ hlow noEnd k
  have low : s.tx.At .sendLow s.tx.offer := ⟨released, hlow, rfl⟩
  have ticks : (List.range (k + 1)).map (fun n => Line.tx (x n)) = ((List.range (k + 1)).map x).map Line.tx := by simp
  obtain ⟨_, after⟩ := low.openFrame (m := s.par.assertMode) noEnd (k + 1)
  refine ⟨_, runLines_after _ s, ?_⟩
  rw [ticks, afterLines_map_tx _ hreq, setStim_tx, setTx_tx]
  refine ⟨after.state.trans (openFrameState_succ k), low.openFrame_enQ noEnd k, fun hk => ?_⟩
  obtain ⟨n, rfl⟩ := Nat.exists_eq_add_of_le' hk
  rw [txRun_range_succ, txStep_out]
  exact low.openFrame_enQ noEnd n

end Sys2Proof.Machine
end

section
/-!
The five RX rows, in a tick out of reset and in a reset tick (rules R81 to R86, R101): `exec` of an RX row is the common tick of
the row's table line `rxRow`, and that tick is written out once for each of the two kinds of tick.
-/

namespace Sys2Proof.Machine

/-! Decoding by match and mask (rules R52, R59, R60) -/

/-- A lookup finds the row that matches, if no other row does. -/
theorem lookup_of_only_match {n : Nat} {rows : List (OpRow n)} {r : OpRow n} (hr : r ∈ rows) {w : BitVec n}
    (hw : w &&& r.mask = r.pat) (once : (rows.filter (fun r => r.matches w)).length = 1) (no : Reject) :
    lookup rows w no = .ok (r.op w) := by
  have found : r ∈ rows.filter (fun r => r.matches w) := List.mem_filter.2 ⟨hr, beq_iff_eq.2 hw⟩
  obtain ⟨r', only⟩ := List.length_eq_one_iff.1 once
  rw [only] at found
  obtain rfl := List.mem_singleton.1 found
  rw [lookup, ← List.head?_filter, only]
  rfl

/-- An RXSEL word that matches a row of the table of R59, given by its number, selects that row's operation. -/
theorem decode_rxsel_row (n : Fin 5) {w : BitVec 3} (hw : w &&& (rxRows.get n).mask = (rxRows.get n).pat) :
    decode .rxsel w.toNat = .ok ((rxRows.get n).op w) := by
  have row : rxRows.get n ∈ rxRows := List.get_mem rxRows n
  have state : w.extractLsb' 1 2 ≠ 0b11#2 := fun reserved =>
    List.filter_eq_nil_iff.1 (rxRows_filter_of_reserved reserved) _ row (beq_iff_eq.2 hw)
  obtain ⟨q, d, rfl⟩ := exists_selRx state
  rw [decode_rxsel, lookup_of_only_match row hw (rxRows_match_once q d)]

/-! What a row does -/

/-- An RX row takes its state and `rx_dv` from the selector and its data from the latched inputs (rules R56, R82 to R86). -/
theorem exec_rxOp_eq_rxTick (q : RxFsm) (d : Bool) (s : State) :
    exec (rxOp q d) s = .next (s.rxTick (rxRow { s.rx with state := q } { s.rx.inp with dv := d })) := by
  cases q with
  | idle => cases d <;> rfl
  | loadHigh => rfl
  | loadLow => cases d <;> rfl

/-- The operations of format RXSEL are those of the case list of R60. -/
theorem exists_rxOp_of_rxsel {i : Instr} (h : (encode i).fmt = .rxsel) : ∃ q d, i = rxOp q d := by
  cases i with
  | rxIdleWait => exact ⟨.idle, false, rfl⟩
  | rxIdleCapture => exact ⟨.idle, true, rfl⟩
  | rxLoadHigh d => exact ⟨.loadHigh, d, rfl⟩
  | rxLoadLowNext => exact ⟨.loadLow, true, rfl⟩
  | rxLoadLowLast => exact ⟨.loadLow, false, rfl⟩
  | _ => cases h

/-- The common part of an rx tick out of reset (rules R36, R81, R87). -/
theorem rxTick_of_normal {s : State} (h : s.resetTick .rx = false) (w : RxRow) :
    s.rxTick w =
      { s with
        rx :=
          { s.rx with
            state := w.next
            lo := w.lo
            hi := w.hi
            sofPending := w.sofPending
            out :=
              { valid := w.valid
                data := s.rx.hi ++ s.rx.lo
                sof := if w.valid then s.rx.sofPending else Config.rxDraw1 s.rx.draws
                eof := if w.valid then w.eof else Config.rxDraw1 (s.rx.draws + 1)
                rst := false }
            given := transfer (w.valid && s.rx.inp.ready) ⟨s.rx.hi ++ s.rx.lo, s.rx.sofPending, w.eof⟩ s.rx.given
            draws := if w.valid then s.rx.draws else s.rx.draws + 2
            recOverrun := s.rx.recOverrun || (w.valid && !s.rx.inp.ready)
            recPartial := s.rx.recPartial || w.short } } := by
  rw [resetTick_rx] at h
  rw [State.rxTick, load_rx_of_normal (s.rx.drive w) h, RxDomain.drive, h]
  rfl

/-- The row's part of an rx reset tick: outputs, their draws and transfer (rules R36, R101; log entries 5 and 8). -/
theorem rxTick_of_reset {s : State} (h : s.resetTick .rx = true) (w : RxRow) :
    s.rxTick w =
      { s with
        rx :=
          { s.rx with
            out :=
              { valid := w.valid
                data := s.rx.hi ++ s.rx.lo
                sof := if w.valid then s.rx.sofPending else Config.rxDraw1 s.rx.draws
                eof := if w.valid then w.eof else Config.rxDraw1 (s.rx.draws + 1)
                rst := true }
            given := transfer (w.valid && s.rx.inp.ready) ⟨s.rx.hi ++ s.rx.lo, s.rx.sofPending, w.eof⟩ s.rx.given
            draws := if w.valid then s.rx.draws else s.rx.draws + 2 } } := by
  rw [resetTick_rx] at h
  rw [State.rxTick, load_rx_of_reset (s.rx.drive w) h, RxDomain.drive, h]
  rfl

/-- Settles O19: the row's part of a reset tick keeps outputs, draws and transfer of the tick out of reset, and no more. -/
theorem rxRowsInResetTick : Obligations.RxRowsInResetTick := by
  intro i s hfmt hrst
  obtain ⟨q, d, rfl⟩ := exists_rxOp_of_rxsel hfmt
  have normal : State.resetTick { s with rx := { s.rx with sync := [] } } .rx = false := rfl
  refine ⟨_, _, exec_rxOp_eq_rxTick q d s, exec_rxOp_eq_rxTick q d _, ?_⟩
  rw [rxTick_of_reset hrst, rxTick_of_normal normal]
  exact ⟨rfl, rfl, rfl⟩

/-- Settles O14: nothing is presented, and the row arms the flag. -/
theorem rxIdleWaitResult : Obligations.RxIdleWaitResult := by
  refine ⟨fun w hw => decode_rxsel_row 0 hw, fun s h => (exec_rxOp_eq_rxTick .idle false s).trans ?_⟩
  simp [rxTick_of_normal h, rxRow]

/-- Settles O15: nothing is presented, and the row arms the flag and captures the low nibble. -/
theorem rxIdleCaptureResult : Obligations.RxIdleCaptureResult := by
  refine ⟨fun w hw => decode_rxsel_row 1 hw, fun s h => (exec_rxOp_eq_rxTick .idle true s).trans ?_⟩
  simp [rxTick_of_normal h, rxRow]

/-- Settles O16: nothing is presented, and the row captures the high nibble, valid or not. -/
theorem rxLoadHighResult : Obligations.RxLoadHighResult := by
  refine ⟨fun w hw => decode_rxsel_row 2 hw, fun d s h => (exec_rxOp_eq_rxTick .loadHigh d s).trans ?_⟩
  simp [rxTick_of_normal h, rxRow]

/-- Settles O17: the byte of the old latches is presented without eof, and taken by a ready consumer. -/
theorem rxLoadLowNextResult : Obligations.RxLoadLowNextResult := by
  refine ⟨fun w hw => decode_rxsel_row 3 hw, fun s h => (exec_rxOp_eq_rxTick .loadLow true s).trans ?_⟩
  simp [rxTick_of_normal h, rxRow, transfer_eq_ite]

/-- Settles O18: the byte is presented with eof, and taken by a ready consumer. -/
theorem rxLoadLowLastResult : Obligations.RxLoadLowLastResult := by
  refine ⟨fun w hw => decode_rxsel_row 4 hw, fun s h => (exec_rxOp_eq_rxTick .loadLow false s).trans ?_⟩
  simp [rxTick_of_normal h, rxRow, transfer_eq_ite]

end Sys2Proof.Machine
end

section
/-!
The consumer's side of the source (rules R81, R87; D6): an element is presented in one tick alone, and its readiness is read only
for the transfer and the overrun record.
-/

namespace Sys2Proof.Machine

/-- Only LOAD_LOW presents (rules R82 to R86). -/
theorem rxRow_valid (r : RxDomain) (x : RxIn) : (rxRow r x).valid = decide (r.state = .loadLow) := by
  cases h : r.state <;> simp [rxRow, h]

section
variable {m : AssertMode} {req : Bool} {r : RxDomain}

/-- A tick outside LOAD_LOW transfers nothing, reset tick or not (rules R36, R81). -/
theorem rxStep_given_of_ne_loadLow (h : r.state ≠ .loadLow) (x : RxIn) : (rxStep m req x r).given = r.given := by
  simp [rxStep_given, rxRow_valid, h]

/-- After a tick that presents an element the receiver is not in LOAD_LOW, so it presents none in the next (rule R87). -/
theorem rxStep_ne_loadLow_of_valid {x : RxIn} (h : (rxStep m req x r).out.valid = true) :
    (rxStep m req x r).state ≠ .loadLow := fun low => by
  have silent : (rxStep m req x r).out.valid = false := (rxStep_sound m req x rfl).silent_in_loadLow low
  rw [silent] at h
  cases h

end

/-- Settles O46: the tick presents without a transfer, and leaves LOAD_LOW, so the next neither presents nor transfers. -/
theorem overrunLosesTheElement : Obligations.OverrunLosesTheElement := by
  intro s i j normal low unready
  have presented : (lineStep (.rx i) s).rx.out.valid = true := by
    rw [lineStep, setRx_rx, rxStep_out_valid, rxRow_valid, low]; rfl
  have lost : (lineStep (.rx i) s).rx.given = s.rx.given := by
    rw [lineStep, setRx_rx, rxStep_given, unready, Bool.and_false, transfer_false]
  have recorded : (lineStep (.rx i) s).rx.recOverrun = true := by
    rw [lineStep, setRx_rx, rxStep_recOverrun, ← resetTick_rx, normal, rxRow_valid, low, unready]; simp
  have left : (lineStep (.rx i) s).rx.state ≠ .loadLow := rxStep_ne_loadLow_of_valid presented
  refine ⟨_, _, runLines_one _ s, runLines_two _ _ s, presented, lost, recorded, ?silent, ?kept⟩
  case silent => rw [setStim_rx, lineStep, setRx_rx, rxStep_out_valid, rxRow_valid, decide_eq_false left]
  case kept => exact (rxStep_given_of_ne_loadLow left j).trans lost

/-- The two domains agree but for the latched inputs, the transferred elements and the overrun record. -/
def RxDomain.AgreesButForConsumer (r u : RxDomain) : Prop :=
  ∃ inp given overrun, r = { u with inp := inp, given := given, recOverrun := overrun }

/-- A tick keeps the agreement, whatever the consumer's readiness in either (rules R81, R87). -/
theorem RxDomain.AgreesButForConsumer.tick {r u : RxDomain} (h : r.AgreesButForConsumer u) (m : AssertMode) (req : Bool)
    (x : RxIn) (ready : Bool) : (rxStep m req x r).AgreesButForConsumer (rxStep m req { x with ready := ready } u) := by
  obtain ⟨inp, given, overrun, agree⟩ := h
  have sync : lastStage r.sync = lastStage u.sync := by rw [agree]
  cases reset : lastStage u.sync
  · rw [reset] at sync
    rw [rxStep_of_normal m req x r sync, rxStep_of_normal m req _ u reset,
      load_rx_of_normal (({ r with inp := x } : RxDomain).drive _) sync,
      load_rx_of_normal (({ u with inp := { x with ready := ready } } : RxDomain).drive _) reset, agree]
    exact ⟨_, _, _, rfl⟩
  · rw [reset] at sync
    rw [rxStep_of_reset m req x r sync, rxStep_of_reset m req _ u reset, agree]
    exact ⟨_, _, _, rfl⟩

/-- A run of rx ticks keeps the agreement. -/
theorem RxDomain.AgreesButForConsumer.run {r u : RxDomain} (h : r.AgreesButForConsumer u) (m : AssertMode) (req : Bool)
    (xs : List (RxIn × Bool)) :
    ((xs.map fun p => p.1).foldl (fun r x => rxStep m req x r) r).AgreesButForConsumer
      ((xs.map fun p => { p.1 with ready := p.2 }).foldl (fun r x => rxStep m req x r) u) := by
  induction xs generalizing r u with
  | nil => exact h
  | cons p xs ih => exact ih (h.tick m req p.1 p.2)

/-- Settles O47: the two runs start from one state, and each tick keeps their agreement. -/
theorem consumerReadinessIsNotRead : Obligations.ConsumerReadinessIsNotRead := by
  intro s xs
  have same : s.rx.AgreesButForConsumer s.rx := ⟨s.rx.inp, s.rx.given, s.rx.recOverrun, rfl⟩
  obtain ⟨inp, given, overrun, agree⟩ := same.run s.par.assertMode s.rstReq xs
  have lines (f : RxIn × Bool → RxIn) : xs.map (fun p => Line.rx (f p)) = (xs.map f).map Line.rx := by simp
  refine ⟨_, _, runLines_after _ s, runLines_after _ s, ?_⟩
  rw [lines fun p => p.1, lines fun p => { p.1 with ready := p.2 }, afterLines, afterLines, foldl_rx, foldl_rx, agree]
  rfl

end Sys2Proof.Machine
end

section
/-!
Frames through a released receiver, with any consumer: the tick that captures a byte's low nibble, the one that captures its high
nibble, and the one that presents it (rules R83 to R91).
-/

namespace Sys2Proof.Machine

/-- Out of reset in LOAD_HIGH, with the low nibble `n` captured and `sof` pending (rules R83, R85). -/
structure RxDomain.HasLow (n : Nibble) (sof : Bool) (r : RxDomain) : Prop where
  released : ∀ b ∈ r.sync, b = false
  state : r.state = .loadHigh
  lo : r.lo = n
  sof : r.sofPending = sof

/-- Out of reset in LOAD_LOW after a tick that presented nothing, with the byte `b` captured and `sof` pending (rule R84). -/
structure RxDomain.HasByte (b : Byte) (sof : Bool) (r : RxDomain) : Prop where
  released : ∀ b ∈ r.sync, b = false
  state : r.state = .loadLow
  data : r.hi ++ r.lo = b
  sof : r.sofPending = sof
  silent : r.out.valid = false

section
variable {m : AssertMode} {r : RxDomain} {n : Nibble} {b : Byte} {sof : Bool}

/-- A released receiver stays released while no request stands (rule R103). -/
theorem rxStep_released_sync (released : ∀ b ∈ r.sync, b = false) (x : RxIn) :
    ∀ b ∈ (rxStep m false x r).sync, b = false := by
  rwa [rxStep_sync, nextStages_released m released]

/-- The rows of a valid nibble in IDLE and in LOAD_LOW (rules R83, R85). -/
theorem rxRow_capture (hq : r.state ≠ .loadHigh) {x : RxIn} (hx : x.dv = true) :
    (rxRow r x).next = .loadHigh ∧ (rxRow r x).lo = x.data ∧ (rxRow r x).sofPending = decide (r.state = .idle) := by
  cases hs : r.state with
  | loadHigh => exact absurd hs hq
  | _ => simp [rxRow, hs, hx]

/-- A valid nibble in IDLE or LOAD_LOW is captured as a low nibble, sof pending exactly if it came in IDLE (rules R83, R85). -/
theorem rxStep_hasLow (released : ∀ b ∈ r.sync, b = false) (hq : r.state ≠ .loadHigh) {x : RxIn} (hx : x.dv = true) :
    (rxStep m false x r).HasLow x.data (decide (r.state = .idle)) := by
  have normal : lastStage r.sync = false := lastStage_of_all_false released
  obtain ⟨next, lo, sof⟩ := rxRow_capture hq hx
  exact ⟨rxStep_released_sync released x, by rw [rxStep_state, normal]; exact next,
    (rxStep_lo_of_normal _ _ _ _ normal).trans lo, (rxStep_sofPending_of_normal _ _ _ _ normal).trans sof⟩

/-- The next tick's nibble is the byte's high nibble, valid or not (rules R84, R91). -/
theorem RxDomain.HasLow.complete (h : r.HasLow n sof) (x : RxIn) : (rxStep m false x r).HasByte (x.data ++ n) sof := by
  obtain ⟨released, state, rfl, rfl⟩ := h
  have normal : lastStage r.sync = false := lastStage_of_all_false released
  have low : (rxStep m false x r).state = .loadLow := by rw [rxStep_state, normal, rxRow_next, state]; rfl
  refine ⟨rxStep_released_sync released x, low, ?data, ?sof, (rxStep_sound m false x rfl).silent_in_loadLow low⟩
  case data => rw [rxStep_hi_of_normal _ _ _ _ normal, rxStep_lo_of_normal _ _ _ _ normal, rxRow, state]
  case sof => rw [rxStep_sofPending_of_normal _ _ _ _ normal, rxRow, state]

/-- A high nibble that is not valid sets rx_partial (rules R84, R91). -/
theorem RxDomain.HasLow.recPartial_of_gap (h : r.HasLow n sof) {x : RxIn} (hx : x.dv = false) :
    (rxStep m false x r).recPartial = true := by
  rw [rxStep_recPartial, lastStage_of_all_false h.released, rxRow, h.state, hx]; simp

/-- The tick after that presents the byte, and ends the frame exactly if it brings no valid nibble (rules R85, R86, R90). -/
theorem RxDomain.HasByte.present (h : r.HasByte b sof) (x : RxIn) {u : RxDomain} (hu : u = rxStep m false x r) :
    u.out.valid = true ∧ u.out.data = b ∧ u.out.sof = sof ∧ u.out.eof = !x.dv ∧
      u.state = if x.dv then .loadHigh else .idle := by
  obtain ⟨released, state, rfl, rfl, -⟩ := h
  rw [hu, rxStep_out, rxStep_state, lastStage_of_all_false released, rxRow_next, rxRow, state]
  exact ⟨rfl, rfl, rfl, rfl, rfl⟩

variable {x : Nat → RxIn}

theorem rxRun_range_succ (k : Nat) :
    rxRun m ((List.range (k + 1)).map x) r = rxStep m false (x k) (rxRun m ((List.range k).map x) r) := by
  rw [List.range_succ, List.map_append, rxRun_append]; rfl

/-- From IDLE, with a valid nibble in tick 0 and in every LOAD_LOW tick before byte k, tick 2k captures the low nibble of byte k,
sof pending exactly if it is the first (rules R88, R89). -/
theorem rxRun_hasLow (released : ∀ b ∈ r.sync, b = false) (idle : r.state = .idle) (first : (x 0).dv = true) {k : Nat}
    (more : ∀ j, j < k → (x (2 * j + 2)).dv = true) :
    (rxRun m ((List.range (2 * k + 1)).map x) r).HasLow (x (2 * k)).data (decide (k = 0)) := by
  induction k with
  | zero =>
    have captured : (rxStep m false (x 0) r).HasLow (x 0).data (decide (r.state = .idle)) :=
      rxStep_hasLow released (by simp [idle]) first
    rwa [idle] at captured
  | succ k ih =>
    have before := (ih fun j hj => more j (Nat.lt_succ_of_lt hj)).complete (m := m) (x (2 * k + 1))
    have captured := rxStep_hasLow (m := m) before.released (by simp [before.state]) (more k k.lt_succ_self)
    rw [before.state] at captured
    rw [Nat.mul_succ, rxRun_range_succ, rxRun_range_succ]
    exact captured

end

/-- Running numbered rx lines while no request stands is the run of the rx domain. -/
theorem afterLines_range_rx (x : Nat → RxIn) (k : Nat) {s : State} (h : s.rstReq = false) :
    afterLines ((List.range k).map fun n => Line.rx (x n)) s =
      s.setRx (rxRun s.par.assertMode ((List.range k).map x) s.rx) := by
  have ticks : ((List.range k).map fun n => Line.rx (x n)) = ((List.range k).map x).map Line.rx := by simp
  rw [ticks, afterLines, foldl_rx, h]; rfl

/-- Settles O43: tick 2m captures the low nibble, tick 2m + 1 completes the byte, and tick 2m + 2 presents it. -/
theorem receiverPresentsPairs : Obligations.ReceiverPresentsPairs := by
  intro s x m ⟨hreq, released⟩ idle first more
  have captured := rxRun_hasLow (m := s.par.assertMode) released idle first more
  have complete := captured.complete (m := s.par.assertMode) (x (2 * m + 1))
  rw [← rxRun_range_succ] at complete
  refine ⟨_, _, runLines_after _ s, runLines_after _ s, ?_⟩
  rw [afterLines_range_rx x _ hreq, afterLines_range_rx x _ hreq]
  exact ⟨complete.silent, complete.state, complete.present (x (2 * m + 2)) (rxRun_range_succ _)⟩

/-- Settles O44: the tick without a nibble completes the byte of tick 2m with rx_partial, and the next presents it, which ends the
frame only if that tick too is without a nibble. -/
theorem oddRunCompletesTheByte : Obligations.OddRunCompletesTheByte := by
  intro s x m ⟨hreq, released⟩ idle valid gap
  have captured := rxRun_hasLow (m := s.par.assertMode) released idle (valid 0 (Nat.zero_le _)) (k := m)
    fun j hj => valid (2 * j + 2) (by omega)
  have complete := captured.complete (m := s.par.assertMode) (x (2 * m + 1))
  have short := captured.recPartial_of_gap (m := s.par.assertMode) gap
  rw [← rxRun_range_succ] at complete short
  obtain ⟨presented, data, -, eof, state⟩ := complete.present (x (2 * m + 2)) (rxRun_range_succ _)
  refine ⟨_, runLines_after _ s, ?_⟩
  rw [afterLines_range_rx x _ hreq, setStim_rx, setRx_rx]
  refine ⟨?_, presented, data, by rw [eof, Bool.not_eq_true'], ?_⟩
  · rw [rxRun_range_succ]
    exact (rxStep_recordsKept _ _ _ _).short short
  · rw [state]
    cases (x (2 * m + 2)).dv <;> simp

end Sys2Proof.Machine
end

section
/-!
The chains of both domains at once, over a quiet run and over host writes: when the latest tick of a domain was a reset tick (rules
R95 to R99, R103, R104, R120).
-/

namespace Sys2Proof.Machine

/-- Whether the latest tick of a domain was a reset tick (rule R97); the base domain has none. -/
def State.lastRst (s : State) : ClockDomain → Bool
  | .base => false
  | .tx => s.tx.out.rst
  | .rx => s.rx.out.rst

/-! What the chains are -/

theorem stages_length_of_inv {s : State} (inv : s.Inv) {d : ClockDomain} (hd : d.hasSync = true) :
    (s.stages d).length = s.par.syncDepth := by
  obtain ⟨-, tx, rx, -⟩ := (inv_iff s).1 inv
  cases d with
  | base => cases hd
  | tx => exact tx.length
  | rx => exact rx.length

/-- A chain of equal stages, in a state that meets the invariant, is N of them. -/
theorem stages_eq_of_inv {s : State} (inv : s.Inv) {d : ClockDomain} (hd : d.hasSync = true) {b : Bool}
    (h : ∀ c ∈ s.stages d, c = b) : s.stages d = List.replicate s.par.syncDepth b := by
  rw [stages_eq_replicate h, stages_length_of_inv inv hd]

theorem syncDepth_pos_of_inv {s : State} (inv : s.Inv) : 0 < s.par.syncDepth := by
  obtain ⟨legal, -⟩ := (inv_iff s).1 inv
  exact Nat.lt_of_lt_of_le Nat.two_pos legal

theorem afterLines_inv (ls : List Line) {s : State} (inv : s.Inv) : (afterLines ls s).Inv := by
  induction ls generalizing s with
  | nil => exact inv
  | cons l ls ih => exact ih (lineStep_inv l inv)

/-! Host writes -/

theorem hostStep_par (v : Bool) (s : State) : (hostStep v s).par = s.par := lineStep_par (.host v) s

/-- A write of 0, and in SHIFT mode any write, only stores (rule R95). -/
theorem hostStep_stores {v : Bool} {s : State} (h : s.par.assertMode = .shift ∨ v = false) :
    hostStep v s = s.setRstReq v := by
  refine if_neg fun ⟨async, one⟩ => ?_
  rcases h with shift | zero
  · rw [shift] at async; cases async
  · rw [zero] at one; cases one

/-- A write of 1 in ASYNC mode holds both domains at once (rules R95, R103). -/
theorem hostStep_held {s : State} (async : s.par.assertMode = .async) (d : ClockDomain) : (hostStep true s).Held d := by
  rw [hostStep, if_pos ⟨async, rfl⟩]
  refine ⟨rfl, ?_⟩
  cases d with
  | base => nofun
  | tx => exact fun _ => mem_presetAll
  | rx => exact fun _ => mem_presetAll

/-! Quiet runs -/

section
variable {d : ClockDomain} {ls : List Line} {s : State}

/-- Over a quiet run a domain's chain takes one ResetSync row per tick of the domain, and the latest tick's `rst_d` is the last
stage as that tick found it (rules R97 to R99). -/
theorem afterLines_chain (hd : d.hasSync = true) (quiet : HostQuiet ls) (s : State) :
    (afterLines ls s).stages d = (nextStages s.par.assertMode s.rstReq)^[ticksOf d ls] (s.stages d) ∧
    (0 < ticksOf d ls → (afterLines ls s).lastRst d =
      lastStage ((nextStages s.par.assertMode s.rstReq)^[ticksOf d ls - 1] (s.stages d))) := by
  cases d with
  | base => cases hd
  | tx => exact afterLines_tx_sync ls s quiet
  | rx => exact afterLines_rx_sync ls s quiet

/-- Held stays held while the host is quiet (rule R104). -/
theorem afterLines_held (hd : d.hasSync = true) (quiet : HostQuiet ls) (held : s.Held d) : (afterLines ls s).Held d := by
  obtain ⟨request, high⟩ := held
  obtain ⟨stages, -⟩ := afterLines_chain hd quiet s
  rw [request, Function.iterate_fixed (nextStages_held _ high)] at stages
  exact ⟨(afterLines_rstReq ls s quiet).trans request, by rwa [stages]⟩

/-- From N stages 1 the latest tick is a reset tick exactly if the request stands or the tick is one of the first N: a sampled 0
takes N ticks to the last stage (rules R103, R104, R120). -/
theorem afterLines_lastRst_of_high {N : Nat} (hN : 0 < N) (hd : d.hasSync = true) (quiet : HostQuiet ls)
    (high : s.stages d = List.replicate N true) (ticks : 0 < ticksOf d ls) :
    (afterLines ls s).lastRst d = (s.rstReq || decide (ticksOf d ls ≤ N)) := by
  obtain ⟨-, rst⟩ := afterLines_chain hd quiet s
  rw [rst ticks, high]
  obtain ⟨n, rfl⟩ := Nat.exists_eq_add_of_le' hN
  cases s.rstReq with
  | true => rw [nextStages_iterate_held, lastStage_replicate_succ, Bool.true_or]
  | false =>
    rw [nextStages_low, lastStage_shiftIn_iterate _ _ _ _ hN, Bool.false_or, Bool.if_true_left, Bool.or_false]
    exact decide_eq_decide.2 (by omega)

/-- Under a standing request in SHIFT mode a released domain's latest tick is a reset tick exactly if N ticks precede it (rule
R103). -/
theorem afterLines_lastRst_of_low {N : Nat} (hN : 0 < N) (hd : d.hasSync = true) (quiet : HostQuiet ls)
    (shift : s.par.assertMode = .shift) (request : s.rstReq = true) (low : s.stages d = List.replicate N false)
    (ticks : 0 < ticksOf d ls) : (afterLines ls s).lastRst d = decide (N < ticksOf d ls) := by
  obtain ⟨-, rst⟩ := afterLines_chain hd quiet s
  have shifts : nextStages .shift true = shiftIn true := rfl
  rw [rst ticks, low, shift, request, shifts, lastStage_shiftIn_iterate _ _ _ _ hN, Bool.if_false_left, Bool.and_true,
    ← decide_not]
  exact decide_eq_decide.2 (by omega)

/-- While reset is held every tick is a reset tick (rule R104). -/
theorem afterLines_lastRst_of_held (inv : s.Inv) (hd : d.hasSync = true) (quiet : HostQuiet ls) (held : s.Held d)
    (ticks : 0 < ticksOf d ls) : (afterLines ls s).lastRst d = true := by
  obtain ⟨request, high⟩ := held
  rw [afterLines_lastRst_of_high (syncDepth_pos_of_inv inv) hd quiet (stages_eq_of_inv inv hd high) ticks, request,
    Bool.true_or]

/-- After a write of 0 from a held domain exactly the first N ticks are reset ticks, in both modes (rule R103). -/
theorem afterLines_lastRst_of_release (inv : s.Inv) (hd : d.hasSync = true) (quiet : HostQuiet ls) (held : s.Held d)
    (ticks : 0 < ticksOf d ls) :
    (afterLines ls (hostStep false s)).lastRst d = decide (ticksOf d ls ≤ s.par.syncDepth) := by
  obtain ⟨-, high⟩ := held
  have chain : (s.setRstReq false).stages d = List.replicate s.par.syncDepth true := stages_eq_of_inv inv hd high
  rw [hostStep_stores (.inr rfl), afterLines_lastRst_of_high (syncDepth_pos_of_inv inv) hd quiet chain ticks,
    setRstReq_rstReq, Bool.false_or]

/-- After a write of 1 in SHIFT mode from a released domain the reset ticks begin after N ticks (rule R103). -/
theorem afterLines_lastRst_of_request (inv : s.Inv) (hd : d.hasSync = true) (quiet : HostQuiet ls)
    (shift : s.par.assertMode = .shift) (released : s.Released d) (ticks : 0 < ticksOf d ls) :
    (afterLines ls (hostStep true s)).lastRst d = decide (s.par.syncDepth < ticksOf d ls) := by
  obtain ⟨-, low⟩ := released
  have chain : (s.setRstReq true).stages d = List.replicate s.par.syncDepth false := stages_eq_of_inv inv hd low
  rw [hostStep_stores (.inl shift)]
  exact afterLines_lastRst_of_low (syncDepth_pos_of_inv inv) hd quiet shift rfl chain ticks

end

end Sys2Proof.Machine
end

section
/-!
The reference toggle over a run, and power-on (rules R93, R94, R120).
-/

namespace Sys2Proof.Machine

/-- A base tick inverts the reference output, and no other line writes the base domain (rules R92, R93). -/
theorem lineStep_base (l : Line) (s : State) :
    (lineStep l s).base = if l.ticks .base then { refOut := !s.base.refOut, clkOut := s.base.refOut } else s.base := by
  cases l with
  | host v => exact hostStep_base v s
  | _ => rfl

/-- After any run the reference output is inverted exactly if the run holds an odd number of base ticks (rule R94). -/
theorem afterLines_refOut (ls : List Line) (s : State) :
    (afterLines ls s).base.refOut = (s.base.refOut ^^ decide (ticksOf .base ls % 2 = 1)) := by
  induction ls generalizing s with
  | nil => exact (Bool.xor_false _).symm
  | cons l ls ih =>
    rw [afterLines_cons, ih, lineStep_base, ticksOf_cons]
    cases l.ticks .base with
    | false => rfl
    | true =>
      rcases Nat.mod_two_eq_zero_or_one (ticksOf .base ls) with even | odd
      · simp [even, Nat.succ_mod_two_eq_one_iff.2 even]
      · simp [odd, Nat.succ_mod_two_eq_zero_iff.2 odd]

/-- Settles O53: every stage powers on at 1 (D13), and the run is quiet. -/
theorem powerOnResetTicks : Obligations.PowerOnResetTicks := by
  intro p ls legal quiet
  have hN : 0 < p.syncDepth := Nat.lt_of_lt_of_le Nat.two_pos legal
  exact ⟨_, runLines_after _ _, afterLines_lastRst_of_high (d := .tx) hN rfl quiet rfl,
    afterLines_lastRst_of_high (d := .rx) hN rfl quiet rfl, afterLines_refOut ls _⟩

/-- Settles O49: after n ticks the level is the start level or its inverse, and the tick n + 1 shows and inverts it. -/
theorem referenceAtHalfRate : Obligations.ReferenceAtHalfRate := by
  refine ⟨fun s n => ⟨_, runLines_after _ s, ?_⟩, fun _ => rfl⟩
  have level : (afterLines (List.replicate n .base) s).base.refOut = (s.base.refOut ^^ decide (n % 2 = 1)) := by
    rw [afterLines_refOut, ticksOf, List.countP_replicate]; rfl
  rw [List.replicate_succ', afterLines_append]
  refine ⟨level, (congrArg (!·) level).trans ?_⟩
  rcases Nat.mod_two_eq_zero_or_one n with even | odd
  · simp [even]
  · simp [odd]

end Sys2Proof.Machine
end

section
/-!
A domain whose clock stands still: no line without a tick of it writes it, but for the ASYNC preset of its chain (rules R92, R95,
R118).
-/

namespace Sys2Proof.Machine

theorem lineStep_tx_of_no_tick {l : Line} (h : l.ticks .tx = false) (s : State) :
    (lineStep l s).tx = { s.tx with sync := (lineStep l s).tx.sync } := by
  cases l with
  | tx i => cases h
  | both i r => cases h
  | host v => rw [lineStep, hostStep_frame]
  | _ => rfl

theorem lineStep_rx_of_no_tick {l : Line} (h : l.ticks .rx = false) (s : State) :
    (lineStep l s).rx = { s.rx with sync := (lineStep l s).rx.sync } := by
  cases l with
  | rx x => cases h
  | both i r => cases h
  | host v => rw [lineStep, hostStep_frame]
  | _ => rfl

theorem lineStep_stages_of_quiet {d : ClockDomain} {l : Line} (quiet : l.isHost = false) (h : l.ticks d = false) (s : State) :
    (lineStep l s).stages d = s.stages d := by
  cases d with
  | base => rfl
  | tx =>
    rcases lineStep_tx l s quiet with ⟨same, -⟩ | ⟨-, tick⟩
    · exact congrArg TxDomain.sync same
    · rw [tick] at h; cases h
  | rx =>
    rcases lineStep_rx l s quiet with ⟨same, -⟩ | ⟨-, tick⟩
    · exact congrArg RxDomain.sync same
    · rw [tick] at h; cases h

/-- A line without a tick of a domain leaves its chain alone, unless it is a write of 1 in ASYNC mode (rules R95, R118). -/
theorem lineStep_stages_of_no_tick {d : ClockDomain} {l : Line} {s : State} (h : l.ticks d = false)
    (noPreset : s.par.assertMode = .shift ∨ l ≠ .host true) : (lineStep l s).stages d = s.stages d := by
  cases l with
  | host v =>
    have stores : hostStep v s = s.setRstReq v := hostStep_stores (noPreset.imp_right fun ne => by simpa using ne)
    rw [lineStep, stores]
    cases d <;> rfl
  | _ => exact lineStep_stages_of_quiet rfl h s

section
variable {d : ClockDomain} {ls : List Line}

/-- A run without a tick of the domain starts with a line without one. -/
theorem no_tick_cons {l : Line} (h : ticksOf d (l :: ls) = 0) : l.ticks d = false ∧ ticksOf d ls = 0 := by
  rw [ticksOf_cons] at h
  obtain ⟨rest, first⟩ := Nat.add_eq_zero_iff.1 h
  exact ⟨by simpa using first, rest⟩

theorem afterLines_tx_of_stopped (h : ticksOf .tx ls = 0) (s : State) :
    (afterLines ls s).tx = { s.tx with sync := (afterLines ls s).tx.sync } := by
  induction ls generalizing s with
  | nil => rfl
  | cons l ls ih =>
    obtain ⟨first, rest⟩ := no_tick_cons h
    have later := ih rest (lineStep l s)
    rw [lineStep_tx_of_no_tick first] at later
    exact later

theorem afterLines_rx_of_stopped (h : ticksOf .rx ls = 0) (s : State) :
    (afterLines ls s).rx = { s.rx with sync := (afterLines ls s).rx.sync } := by
  induction ls generalizing s with
  | nil => rfl
  | cons l ls ih =>
    obtain ⟨first, rest⟩ := no_tick_cons h
    have later := ih rest (lineStep l s)
    rw [lineStep_rx_of_no_tick first] at later
    exact later

/-- A run without a tick of a domain leaves its chain alone, unless it holds a write of 1 in ASYNC mode (rules R95, R118). -/
theorem afterLines_stages_of_stopped {s : State} (h : ticksOf d ls = 0)
    (noPreset : s.par.assertMode = .shift ∨ Line.host true ∉ ls) : (afterLines ls s).stages d = s.stages d := by
  induction ls generalizing s with
  | nil => rfl
  | cons l ls ih =>
    obtain ⟨first, rest⟩ := no_tick_cons h
    rw [afterLines_cons, ih rest, lineStep_stages_of_no_tick first]
    · exact noPreset.imp_right fun absent => (List.ne_of_not_mem_cons absent).symm
    · rw [lineStep_par]
      exact noPreset.imp_right List.not_mem_of_not_mem_cons

theorem afterLines_base_of_stopped (h : ticksOf .base ls = 0) (s : State) : (afterLines ls s).base = s.base := by
  induction ls generalizing s with
  | nil => rfl
  | cons l ls ih =>
    obtain ⟨first, rest⟩ := no_tick_cons h
    rw [afterLines_cons, ih rest, lineStep_base, first]
    rfl

end

/-- Settles O50: line by line, a domain without a tick keeps all but its chain, and that too unless a write presets it. -/
theorem stoppedClockKeepsItsDomain : Obligations.StoppedClockKeepsItsDomain := fun s ls =>
  ⟨_, runLines_after ls s, fun h => afterLines_base_of_stopped h s,
    fun h => ⟨afterLines_tx_of_stopped h s, afterLines_stages_of_stopped (d := .tx) h⟩,
    fun h => ⟨afterLines_rx_of_stopped h s, afterLines_stages_of_stopped (d := .rx) h⟩⟩

end Sys2Proof.Machine
end

section
/-!
Reset ticks, and how long a reset lasts (rules R97 to R104, R110): a reset tick leaves IDLE, so while the ticks are reset ticks the
next tick of the domain finds it there.
-/

namespace Sys2Proof.Machine

/-- Settles O52: the fields a reset tick writes, and its row's outputs. -/
theorem resetTickForcesIdle : Obligations.ResetTickForcesIdle := by
  refine ⟨fun s i reset => ⟨_, runLines_one _ s, ?tx⟩, fun s x reset => ⟨_, runLines_one _ s, ?rx⟩⟩
  case tx =>
    rw [resetTick_tx] at reset
    rw [lineStep, setStim_tx, setTx_tx, txStep_state, txStep_enQ, txStep_out, txStep_recDiscard, txStep_recUnderrun, reset,
      txRow_ready]
    refine ⟨rfl, rfl, rfl, Bool.or_false _, Bool.or_false _, rfl, rfl, ?_⟩
    cases s.tx.state <;> simp
  case rx =>
    rw [resetTick_rx] at reset
    rw [lineStep, setStim_rx, setRx_rx, rxStep_state, rxStep_out, rxStep_recOverrun, rxStep_recPartial, reset, rxRow_valid]
    exact ⟨rfl, rfl, Bool.or_false _, Bool.or_false _, rfl, rfl⟩

/-- A run that holds a tick of a domain holds a latest one. -/
theorem exists_latest_tick {d : ClockDomain} {ls : List Line} (h : 0 < ticksOf d ls) :
    ∃ ms l ns, ls = ms ++ l :: ns ∧ l.ticks d = true ∧ ticksOf d ns = 0 := by
  induction ls with
  | nil => cases h
  | cons l ls ih =>
    rcases Nat.eq_zero_or_pos (ticksOf d ls) with last | later
    · cases tick : l.ticks d with
      | false => simp [ticksOf_cons, last, tick] at h
      | true => exact ⟨[], l, ls, rfl, tick, last⟩
    · obtain ⟨ms, l', ns, rfl, tick, last⟩ := ih later
      exact ⟨l :: ms, l', ns, rfl, tick, last⟩

theorem ticksOf_latest {d : ClockDomain} {l : Line} {ns : List Line} (tick : l.ticks d = true) (last : ticksOf d ns = 0)
    (ms : List Line) : ticksOf d (ms ++ l :: ns) = ticksOf d ms + 1 := by
  rw [ticksOf, List.countP_append, ← ticksOf, ← ticksOf, ticksOf_cons, last, tick]
  rfl

section
variable {ls : List Line} {s : State}

/-- After a quiet run with a tx tick the tx domain stands as its latest tick left it. -/
theorem afterLines_tx_latest (quiet : HostQuiet ls) (ticks : 0 < ticksOf .tx ls) :
    ∃ ms i, HostQuiet ms ∧ ticksOf .tx ls = ticksOf .tx ms + 1 ∧
      (afterLines ls s).tx = txStep s.par.assertMode s.rstReq i (afterLines ms s).tx := by
  obtain ⟨ms, l, ns, rfl, tick, last⟩ := exists_latest_tick ticks
  obtain ⟨before, hl, after⟩ := List.forall_mem_append.1 quiet |>.imp_right List.forall_mem_cons.1
  rw [afterLines_append, afterLines_cons, afterLines_tx_of_no_tick ns _ after last]
  rcases lineStep_tx l (afterLines ms s) hl with ⟨-, noTick⟩ | ⟨⟨i, step⟩, -⟩
  · rw [tick] at noTick; cases noTick
  · rw [afterLines_par, afterLines_rstReq ms s before] at step
    exact ⟨ms, i, before, ticksOf_latest tick last ms, step⟩

/-- After a quiet run with an rx tick the rx domain stands as its latest tick left it. -/
theorem afterLines_rx_latest (quiet : HostQuiet ls) (ticks : 0 < ticksOf .rx ls) :
    ∃ ms x, HostQuiet ms ∧ ticksOf .rx ls = ticksOf .rx ms + 1 ∧
      (afterLines ls s).rx = rxStep s.par.assertMode s.rstReq x (afterLines ms s).rx := by
  obtain ⟨ms, l, ns, rfl, tick, last⟩ := exists_latest_tick ticks
  obtain ⟨before, hl, after⟩ := List.forall_mem_append.1 quiet |>.imp_right List.forall_mem_cons.1
  rw [afterLines_append, afterLines_cons, afterLines_rx_of_no_tick ns _ after last]
  rcases lineStep_rx l (afterLines ms s) hl with ⟨-, noTick⟩ | ⟨⟨x, step⟩, -⟩
  · rw [tick] at noTick; cases noTick
  · rw [afterLines_par, afterLines_rstReq ms s before] at step
    exact ⟨ms, x, before, ticksOf_latest tick last ms, step⟩

/-- The latest tx tick of a held domain was a reset tick, so the FSM is in IDLE with enable off (rules R100, R104). -/
theorem afterLines_tx_of_held (inv : s.Inv) (quiet : HostQuiet ls) (held : s.Held .tx) (ticks : 0 < ticksOf .tx ls) :
    (afterLines ls s).tx.out.rst = true ∧ (afterLines ls s).tx.state = .idle ∧ (afterLines ls s).tx.enQ = false := by
  have rst : (afterLines ls s).tx.out.rst = true := afterLines_lastRst_of_held (d := .tx) inv rfl quiet held ticks
  refine ⟨rst, ?_⟩
  obtain ⟨ms, i, -, -, step⟩ := afterLines_tx_latest (s := s) quiet ticks
  rw [step, txStep_out] at rst
  rw [step, txStep_state, txStep_enQ, if_pos rst, if_pos rst]
  exact ⟨rfl, rfl⟩

/-- The latest rx tick of a held domain was a reset tick, so the FSM is in IDLE (rules R101, R104). -/
theorem afterLines_rx_of_held (inv : s.Inv) (quiet : HostQuiet ls) (held : s.Held .rx) (ticks : 0 < ticksOf .rx ls) :
    (afterLines ls s).rx.out.rst = true ∧ (afterLines ls s).rx.state = .idle := by
  have rst : (afterLines ls s).rx.out.rst = true := afterLines_lastRst_of_held (d := .rx) inv rfl quiet held ticks
  refine ⟨rst, ?_⟩
  obtain ⟨ms, x, -, -, step⟩ := afterLines_rx_latest (s := s) quiet ticks
  rw [step, rxStep_out_rst] at rst
  rw [step, rxStep_state, if_pos rst]

/-- From its second tick on a held transmitter shows no enable: each tick shows what the one before loaded (rules R67, R104). -/
theorem afterLines_tx_disabled_of_held (inv : s.Inv) (quiet : HostQuiet ls) (held : s.Held .tx) (ticks : 2 ≤ ticksOf .tx ls) :
    (afterLines ls s).tx.out.en = false := by
  obtain ⟨ms, i, before, count, step⟩ := afterLines_tx_latest (s := s) quiet (Nat.lt_of_lt_of_le Nat.two_pos ticks)
  obtain ⟨-, -, disabled⟩ := afterLines_tx_of_held inv before held (by omega)
  rw [step, txStep_out, disabled]

/-- From its second tick on a held receiver presents nothing: only LOAD_LOW presents (rules R81, R104). -/
theorem afterLines_rx_silent_of_held (inv : s.Inv) (quiet : HostQuiet ls) (held : s.Held .rx) (ticks : 2 ≤ ticksOf .rx ls) :
    (afterLines ls s).rx.out.valid = false := by
  obtain ⟨ms, x, before, count, step⟩ := afterLines_rx_latest (s := s) quiet (Nat.lt_of_lt_of_le Nat.two_pos ticks)
  obtain ⟨-, idle⟩ := afterLines_rx_of_held inv before held (by omega)
  rw [step, rxStep_out_valid, rxRow_valid, idle]
  rfl

end

/-- Settles O56: held stays held, so every tick is a reset tick, which leaves IDLE to the next. -/
theorem heldResetStaysInIdle : Obligations.HeldResetStaysInIdle := by
  intro s ls inv quiet
  refine ⟨_, runLines_after ls s, fun held ticks => ?tx, fun held ticks => ?rx⟩
  case tx =>
    obtain ⟨rst, idle, disabled⟩ := afterLines_tx_of_held inv quiet held ticks
    exact ⟨afterLines_held rfl quiet held, rst, idle, disabled, afterLines_tx_disabled_of_held inv quiet held⟩
  case rx =>
    obtain ⟨rst, idle⟩ := afterLines_rx_of_held inv quiet held ticks
    exact ⟨afterLines_held rfl quiet held, rst, idle, afterLines_rx_silent_of_held inv quiet held⟩

/-- Settles O54: the write of 1 holds both domains at once, they stay held, and the write of 0 finds them so. -/
theorem asyncResetLatency : Obligations.AsyncResetLatency := by
  intro s ls ms inv async quiet quiet'
  have held (d : ClockDomain) : (hostStep true s).Held d := hostStep_held async d
  have inv' : (hostStep true s).Inv := hostStep_inv true inv
  have released {d : ClockDomain} (hd : d.hasSync = true) (ticks : 0 < ticksOf d ms) :
      (afterLines (.host true :: ls ++ .host false :: ms) s).lastRst d = decide (ticksOf d ms ≤ s.par.syncDepth) := by
    have stillHeld : (afterLines ls (hostStep true s)).Held d := afterLines_held hd quiet (held d)
    rw [afterLines_append, afterLines_cons, afterLines_cons, ← hostStep_par true s, ← afterLines_par ls]
    exact afterLines_lastRst_of_release (afterLines_inv ls inv') hd quiet' stillHeld ticks
  refine ⟨_, _, runLines_after _ s, runLines_after _ s, fun ticks => ?tx, fun ticks => ?rx, released (d := .tx) rfl,
    released (d := .rx) rfl⟩
  case tx =>
    obtain ⟨rst, idle, -⟩ := afterLines_tx_of_held inv' quiet (held .tx) ticks
    exact ⟨rst, idle⟩
  case rx =>
    obtain ⟨rst, idle⟩ := afterLines_rx_of_held inv' quiet (held .rx) ticks
    exact ⟨rst, idle⟩

/-- A pulse of the request adds no ticks. -/
theorem ticksOf_pulse (d : ClockDomain) (ls : List Line) : ticksOf d (.host true :: ls ++ [.host false]) = ticksOf d ls := by
  simp [ticksOf, Line.ticks]

/-- In SHIFT mode a run without a tx tick leaves the whole tx domain alone, host writes and all (rules R95, R118). -/
theorem afterLines_tx_of_stopped_shift {ls : List Line} {s : State} (shift : s.par.assertMode = .shift)
    (h : ticksOf .tx ls = 0) : (afterLines ls s).tx = s.tx := by
  have sync : (afterLines ls s).tx.sync = s.tx.sync := afterLines_stages_of_stopped (d := .tx) h (.inl shift)
  rw [afterLines_tx_of_stopped h, sync]

/-- In SHIFT mode a run without an rx tick leaves the whole rx domain alone, host writes and all (rules R95, R118). -/
theorem afterLines_rx_of_stopped_shift {ls : List Line} {s : State} (shift : s.par.assertMode = .shift)
    (h : ticksOf .rx ls = 0) : (afterLines ls s).rx = s.rx := by
  have sync : (afterLines ls s).rx.sync = s.rx.sync := afterLines_stages_of_stopped (d := .rx) h (.inl shift)
  rw [afterLines_rx_of_stopped h, sync]

/-- Settles O55: the chain is N equal stages at the write, and a pulse without a tick is a run without one. -/
theorem shiftResetLatency : Obligations.ShiftResetLatency := by
  intro s ls inv shift quiet
  exact ⟨_, _, _, runLines_after _ s, runLines_after _ s, runLines_after _ s,
    afterLines_lastRst_of_request (d := .tx) inv rfl quiet shift,
    afterLines_lastRst_of_request (d := .rx) inv rfl quiet shift,
    afterLines_lastRst_of_release (d := .tx) inv rfl quiet,
    afterLines_lastRst_of_release (d := .rx) inv rfl quiet,
    fun h => afterLines_tx_of_stopped_shift shift ((ticksOf_pulse .tx ls).trans h),
    fun h => afterLines_rx_of_stopped_shift shift ((ticksOf_pulse .rx ls).trans h)⟩

end Sys2Proof.Machine
end

section
/-!
The rows of the base domain, the host and ResetSync, as `exec` runs them (rules R93, R95 to R99).
-/

namespace Sys2Proof.Machine

theorem setStages_self (s : State) (d : ClockDomain) : s.setStages d (s.stages d) = s := by
  cases d <;> rfl

theorem exec_rsReqHigh {d : ClockDomain} (hd : d.hasSync = true) (s : State) :
    exec (.rsReqHigh d) s = .next (s.setStages d (assertStages s.par.assertMode (s.stages d))) := if_pos hd

theorem exec_rsReqLow {d : ClockDomain} (hd : d.hasSync = true) (s : State) :
    exec (.rsReqLow d) s = .next (s.setStages d (shiftIn false (s.stages d))) := if_pos hd

theorem exec_hostWriteResetReq (v : Bool) (s : State) : exec (.hostWriteResetReq v) s = .next (hostStep v s) := by
  rw [← runRow_host, runRow_of_decode (decode_hostw v)]

/-- The stages after RS.REQ_HIGH, by the mode (rule R98). -/
theorem assertStages_eq_ite (m : AssertMode) (l : List Bool) :
    assertStages m l = if m = .async then List.replicate l.length true else (true :: l).dropLast := by
  cases m <;> rfl

/-- In ASYNC mode the stages are 1 while the request stands (rules R95, R98). -/
theorem stages_high_of_request {s : State} (inv : s.Inv) (async : s.par.assertMode = .async) (request : s.rstReq = true)
    (d : ClockDomain) : ∀ b ∈ s.stages d, b = true := by
  obtain ⟨-, -, -, chains⟩ := (inv_iff s).1 inv
  obtain ⟨tx, rx⟩ := chains async request
  cases d with
  | base => nofun
  | tx => exact tx
  | rx => exact rx

/-- Settles O20: no part of the state but the base domain is read or written. -/
theorem baseToggleResult : Obligations.BaseToggleResult := ⟨rfl, fun _ => rfl⟩

/-- Settles O21: the row is the host write of Laws/Tick.lean, written out by mode and value. -/
theorem hostWriteResult : Obligations.HostWriteResult := by
  refine ⟨decode_hostw, fun _ => rfl, fun v s => ⟨_, exec_hostWriteResetReq v s, ?_, ?_⟩⟩
  · rw [State.phyRstN, hostStep_rstReq]
  · rw [hostStep]
    split <;> rfl

/-- Settles O22: the row loads the asserted stages, which a chain of 1s already is. -/
theorem reqHighResult : Obligations.ReqHighResult := by
  refine ⟨fun d hd => decode_rssel hd true, fun s d inv async request hd => ?_, fun s => ⟨?_, ?_⟩⟩
  · have kept : assertStages s.par.assertMode (s.stages d) = s.stages d :=
      nextStages_held _ (stages_high_of_request inv async request d)
    rw [exec_rsReqHigh hd, kept, setStages_self]
  · rw [exec_rsReqHigh rfl, assertStages_eq_ite]; rfl
  · rw [exec_rsReqHigh rfl, assertStages_eq_ite]; rfl

/-- Settles O23: the row shifts a 0 in, and does not look at the mode. -/
theorem reqLowResult : Obligations.ReqLowResult :=
  ⟨fun _ hd => decode_rssel hd false, fun s => ⟨exec_rsReqLow rfl s, exec_rsReqLow rfl s⟩⟩

end Sys2Proof.Machine
end

section
/-!
Progress: no state stops the machine (rules R106, R107, R119).
-/

namespace Sys2Proof.Machine

/-- Settles O28: a line in front is run and taken off, whatever the rest of the state is; with no line left the machine steps to
itself, the model's choice (log entry 2). -/
theorem stepAlwaysAnswersNext : Obligations.StepAlwaysAnswersNext := by
  intro s
  cases hs : s.stim with
  | nil => exact ⟨s, step_of_nil hs, hs⟩
  | cons l ls =>
    have taken : (lineStep l (s.setStim ls)).stim = ls := lineStep_stim l _
    exact ⟨_, step_of_stim hs, taken⟩

end Sys2Proof.Machine
end
